-- ==== Sys2Proof/Word.lean ====
section
/-! DEFINITION. The word type of the core and its plainest readings (00_scope.md rules R5, R6). -/

namespace Sys2Proof

/-- A 32-bit word, two's complement (R5 `XLEN`, R6). -/
abbrev Word := BitVec 32

/-- A register index as an encoding holds it in field0 or field1: three bits (R5, R60). -/
abbrev Reg := BitVec 3

/-- The 16 bits of field2: an offset, or the destination index of ADD and NOR (R60). -/
abbrev Half := BitVec 16

/-- `s32(w)`: the signed reading of a word (R6). -/
def s32 (w : Word) : Int := w.toInt

/-- `u32(w)`: the unsigned reading of a word (R6). -/
def u32 (w : Word) : Nat := w.toNat

end Sys2Proof
end

