-- ==== Sys2Proof/Machine/Flags.lean ====
section
/-! DEFINITION. The core has no flags, condition codes or predicates (10_state.md R34). The one test
an instruction makes on a result is BEQ's, kept here; it reads EXMEM and leaves nothing behind. -/

namespace Sys2Proof.Machine

/-- `aluResult == 0`, every bit zero (R7): the condition under which a BEQ is taken (R114, R160). -/
def resultIsZero (aluResult : Word) : Bool := decide (aluResult = 0)

end Sys2Proof.Machine
end

