-- ==== Sys2Proof/Syntax.lean ====
section
/-! DEFINITION. The eight instructions of the ITE2031 ISA (30_encoding.md rules R60, R63, R66). -/

namespace Sys2Proof

/-- One constructor per row of the opcode table. Every constructor carries all three fields of its
word, the ignored ones too (R63 format O), because the latches hold whole words and `snapshot` shows
them (R223): two HALT words that differ in ignored fields are two different latch values.
ADD and NOR carry the whole 16-bit field2; that it must be a register index is `Instr.wellFormed`. -/
inductive Instr where
  /-- `ADD rd,rs,rt` (R140): field0 `rs`, field1 `rt`, field2 `rd`. -/
  | add (rs rt : Reg) (rd : Half)
  /-- `NOR rd,rs,rt` (R141). -/
  | nor (rs rt : Reg) (rd : Half)
  /-- `LW rt,rs,off` (R150): base `rs`, destination `rt` in field1 (conflict C1), offset field2. -/
  | lw (rs rt : Reg) (off : Half)
  /-- `SW rt,rs,off` (R151): base `rs`, stored register `rt`. -/
  | sw (rs rt : Reg) (off : Half)
  /-- `BEQ rs,rt,off` (R160). -/
  | beq (rs rt : Reg) (off : Half)
  /-- `JALR` (R170): reserved, no effect; the fields are ignored. -/
  | jalr (f0 f1 : Reg) (f2 : Half)
  /-- `HALT` (R171): the fields are ignored. -/
  | halt (f0 f1 : Reg) (f2 : Half)
  /-- `NOOP` (R172): the fields are ignored. -/
  | noop (f0 f1 : Reg) (f2 : Half)
deriving DecidableEq, Repr

/-- The opcode value of an instruction (R60). -/
def Instr.opcode : Instr → Nat
  | .add _ _ _ => 0
  | .nor _ _ _ => 1
  | .lw _ _ _ => 2
  | .sw _ _ _ => 3
  | .beq _ _ _ => 4
  | .jalr _ _ _ => 5
  | .halt _ _ _ => 6
  | .noop _ _ _ => 7

/-- field0 of an instruction: `rs`, or an ignored field (R63). -/
def Instr.field0 : Instr → Reg
  | .add rs _ _ => rs
  | .nor rs _ _ => rs
  | .lw rs _ _ => rs
  | .sw rs _ _ => rs
  | .beq rs _ _ => rs
  | .jalr a _ _ => a
  | .halt a _ _ => a
  | .noop a _ _ => a

/-- field1 of an instruction: `rt`, or an ignored field (R63). -/
def Instr.field1 : Instr → Reg
  | .add _ rt _ => rt
  | .nor _ rt _ => rt
  | .lw _ rt _ => rt
  | .sw _ rt _ => rt
  | .beq _ rt _ => rt
  | .jalr _ b _ => b
  | .halt _ b _ => b
  | .noop _ b _ => b

/-- field2 of an instruction: the destination, the offset, or an ignored field (R63). -/
def Instr.field2 : Instr → Half
  | .add _ _ rd => rd
  | .nor _ _ rd => rd
  | .lw _ _ off => off
  | .sw _ _ off => off
  | .beq _ _ off => off
  | .jalr _ _ c => c
  | .halt _ _ c => c
  | .noop _ _ c => c

end Sys2Proof
end

