-- ==== Sys2Proof/Decode.lean ====
section
/-! DEFINITION. The instruction codec (30_encoding.md rules R60 to R69): total on every word,
rejecting an undefined word by name, and the encoder beside it. -/

namespace Sys2Proof

/-- Why a word has no instruction. -/
inductive DecodeError where
  /-- The opcode value (bits at and above 22, read as a signed number) is outside 0..7, that is bits
  31:25 are not all zero: the word is Undefined (R62). Raised by `decode`; safe: what an Undefined
  word does is modelled by the stages (R173). -/
  | undefinedOpcode (raw : Int)
deriving DecidableEq, Repr

/-- `f0(w) = w[21:19]` (R61). -/
def f0 (w : Word) : Reg := w.extractLsb' 19 3

/-- `f1(w) = w[18:16]` (R61). -/
def f1 (w : Word) : Reg := w.extractLsb' 16 3

/-- `f2(w) = w[15:0]` (R61). -/
def f2 (w : Word) : Half := w.extractLsb' 0 16

/-- `opcodeRaw(w) = s32(w) >> 22`, an arithmetic shift (R61): an integer in -512..511. -/
def opcodeRaw (w : Word) : Int := s32 w >>> (22 : Nat)

/-- Bits 31:22: the unused bits and the opcode together (R60). `opcodeRaw` is its signed reading. -/
def opcodeField (w : Word) : BitVec 10 := w.extractLsb' 22 10

/-- `sext_16(v)` (R7): the offset of R64. -/
def sext16 (v : Half) : Word := v.signExtend 32

/-- The decoder: the row of R66 whose bits 31:22 the word has, or Undefined (R62). An ADD or NOR with
field2 above 7 decodes; that it is illegal is `Instr.wellFormed` (R65). -/
def decode (w : Word) : Except DecodeError Instr :=
  match (opcodeField w).toNat with
  | 0 => .ok (.add (f0 w) (f1 w) (f2 w))
  | 1 => .ok (.nor (f0 w) (f1 w) (f2 w))
  | 2 => .ok (.lw (f0 w) (f1 w) (f2 w))
  | 3 => .ok (.sw (f0 w) (f1 w) (f2 w))
  | 4 => .ok (.beq (f0 w) (f1 w) (f2 w))
  | 5 => .ok (.jalr (f0 w) (f1 w) (f2 w))
  | 6 => .ok (.halt (f0 w) (f1 w) (f2 w))
  | 7 => .ok (.noop (f0 w) (f1 w) (f2 w))
  | _ => .error (.undefinedOpcode (opcodeRaw w))

/-- `enc(op, a, b, c)` of R69: seven zero bits and the opcode, field0, field1, field2. -/
def enc (op : BitVec 10) (a b : Reg) (c : Half) : Word := op ++ a ++ b ++ c

/-- The word of an instruction (R69, with the opcode values of R60). -/
def encode : Instr → Word
  | .add rs rt rd => enc 0 rs rt rd
  | .nor rs rt rd => enc 1 rs rt rd
  | .lw rs rt off => enc 2 rs rt off
  | .sw rs rt off => enc 3 rs rt off
  | .beq rs rt off => enc 4 rs rt off
  | .jalr a b c => enc 5 a b c
  | .halt a b c => enc 6 a b c
  | .noop a b c => enc 7 a b c

/-- The decoder's answer as an option: the form in which the stages ask "which instruction, if any,
does this latch hold". `none` is an Undefined word. -/
def instrOf (w : Word) : Option Instr :=
  match decode w with
  | .ok i => some i
  | .error _ => none

/-- The decoder at an opcode-table word: bit 0 of `w` is the least significant bit of the one word an
instruction has (R60), and the bits at and above `nbits` are 0. -/
def decodeTableWord (nbits w : Nat) : Option Instr :=
  instrOf (BitVec.ofNat 32 (w % 2 ^ nbits))

end Sys2Proof
end

