-- ==== Sys2Proof/Config.lean ====
section
/-! DEFINITION. The implementation parameters of the core (00_scope.md rule R5). -/

namespace Sys2Proof.Config

/-- `NIMEM`: words of the instruction store (R5, R24). -/
abbrev imemWords : Nat := 65536

/-- `NDMEM`: words of the data store (R5, R25). -/
abbrev dmemWords : Nat := 65536

/-- What a store address that the state does not list reads as. It is how the model writes a store
down (only the words that differ from it are listed) and, with nothing loaded, the value of
`UNLOADED` in `State.reset`. DESIGN CHOICE, unsafe for `State.reset` only (log entry 2): the spec
leaves `UNLOADED` an open parameter (R5, D6), which `load` takes as an argument. -/
def unlistedWord : Word := 0#32

/-- `NOOPW`, the canonical NOOP word, `7 << 22` (R67). -/
def noopWord : Word := 0x01C00000#32

end Sys2Proof.Config
end

