-- ==== Sys2Proof/Machine/State.lean ====
section
/-! DEFINITION. The complete state of the core (10_state.md rules R20 to R38), as plain data. -/

namespace Sys2Proof.Machine

/-- The closed list of faults (60_exceptions.md R201), each with the info it records. -/
inductive Fault where
  /-- Code 1. Raised by `load` only, before any tick: the image has more than 65536 words, or a value
  is outside `-2^31..2^31-1`. Records the index of the first offending word. It is the one fault that
  stops with no state (R202), so it alone is answered as an `Outcome.fault`. Safe: it is the spec's. -/
  | loadError (index : Nat)
  /-- Code 2. Raised by the Memory stage for an Undefined word, or an ADD or NOR whose field2 is above
  7, in EXMEM at the start of a running tick (R203). Records the word and `cycles`. The core goes to
  status FAULTED (R206). Safe: it is the spec's. -/
  | invalidInstruction (word : Word) (cycles : Nat)
  /-- Code 3. `InvalidAddress(data)`, raised by the Memory stage for a LW or SW whose effective address
  is outside 0..65535 (R204). Records the address, the instruction word and `cycles`. Safe: it is the
  spec's. -/
  | invalidAddressData (addr word : Word) (cycles : Nat)
  /-- Code 4. `InvalidAddress(fetch)`, raised by the Fetch stage for a `pc` outside 0..65535 when the
  fetched word would be latched (R205). Records `pc` and `cycles`. Safe: it is the spec's. -/
  | invalidAddressFetch (pc : Word) (cycles : Nat)
deriving DecidableEq, Repr

/-- The closed list of refusals. -/
inductive Refusal where
  /-- An instruction of the opcode table that has no meaning yet. Raised by an arm of `exec`; no arm
  raises it in this model, since every instruction has its meaning. Safe. -/
  | notModelled (mnemonic : String)
deriving DecidableEq, Repr

/-- The run status of the Clock Controller (R33). HALTED and FAULTED are terminal. -/
inductive Status where
  | running
  | halted
  | faulted (fault : Fault)
deriving DecidableEq, Repr

/-- A word-addressed store (R40), as the list of the words that differ from `Config.unlistedWord`,
addresses strictly rising. The spec's memories hold words and have no bytes (R43), so a cell is an
address with a word (log entry 6). -/
structure Store where
  cells : List (Nat × Word)
deriving DecidableEq, Repr

/-- IFID (R27). -/
structure IFID where
  instr : Word
  pcPlus1 : Word
deriving DecidableEq, Repr

/-- IDEX (R28); `offset` is the source's `signExtendedOffset`. -/
structure IDEX where
  instr : Word
  pcPlus1 : Word
  readRegA : Word
  readRegB : Word
  offset : Word
deriving DecidableEq, Repr

/-- EXMEM (R29). -/
structure EXMEM where
  instr : Word
  branchTarget : Word
  aluResult : Word
  readRegB : Word
deriving DecidableEq, Repr

/-- MEMWB (R30). -/
structure MEMWB where
  instr : Word
  writeData : Word
deriving DecidableEq, Repr

/-- WBEND (R31): MEMWB as it stood at the start of the previous tick, read only by forwarding. -/
structure WBEND where
  instr : Word
  writeData : Word
deriving DecidableEq, Repr

/-- The complete state of the core (R20). -/
structure State where
  /-- Word address of the next word Fetch reads, a 32-bit signed word (R23; log entry 7). -/
  pc : Word
  /-- Instruction store (R24): written by `load` only. -/
  imem : Store
  /-- Data store (R25). -/
  dmem : Store
  /-- r0 to r7 (R21); r0 is an ordinary register. -/
  reg : Vector Word 8
  /-- Ticks that ran (R26), unbounded (D18; log entry 8). -/
  cycles : Nat
  ifid : IFID
  idex : IDEX
  exmem : EXMEM
  memwb : MEMWB
  wbend : WBEND
  status : Status
deriving DecidableEq, Repr

/-- A bubble in IFID (R32): `NOOPW` with every other field 0. -/
def IFID.bubble : IFID := ⟨Config.noopWord, 0⟩

/-- A bubble in IDEX (R32, R108, R115). -/
def IDEX.bubble : IDEX := ⟨Config.noopWord, 0, 0, 0, 0⟩

/-- A bubble in EXMEM (R32, R115). -/
def EXMEM.bubble : EXMEM := ⟨Config.noopWord, 0, 0, 0⟩

/-- A bubble in MEMWB (R32, R38). -/
def MEMWB.bubble : MEMWB := ⟨Config.noopWord, 0⟩

/-- A bubble in WBEND (R32, R38). -/
def WBEND.bubble : WBEND := ⟨Config.noopWord, 0⟩

/-- The state the load operation leaves with the given contents of the two stores: R38 less its four
store lines. -/
def State.loaded (imem dmem : Store) : State :=
  { pc := 0
    imem := imem
    dmem := dmem
    reg := Vector.replicate 8 0
    cycles := 0
    ifid := IFID.bubble
    idex := IDEX.bubble
    exmem := EXMEM.bubble
    memwb := MEMWB.bubble
    wbend := WBEND.bubble
    status := .running }

/-- The machine right after reset: the values of R38 with nothing listed in either store, which is
what `load` builds from the empty image when `UNLOADED` is `Config.unlistedWord` everywhere (log entry
2, DESIGN CHOICE). -/
def State.reset : State := State.loaded ⟨[]⟩ ⟨[]⟩

end Sys2Proof.Machine
end

