-- ==== Sys2Proof/Machine/Operands.lean ====
section
/-! DEFINITION. Operand forms: which registers an instruction reads and writes, the ALU result of each
instruction, the one addressing mode, and the forwarding network that supplies the operands
(40_pipeline.md rules R106, R109 to R113). -/

namespace Sys2Proof.Machine

/-- `src(i)` (R106): the registers the hazard unit sees an instruction read. -/
def sources : Instr → List Reg
  | .add rs rt _ => [rs, rt]
  | .nor rs rt _ => [rs, rt]
  | .lw rs _ _ => [rs]
  | .sw rs rt _ => [rs, rt]
  | .beq rs rt _ => [rs, rt]
  | .jalr _ _ _ => []
  | .halt _ _ _ => []
  | .noop _ _ _ => []

/-- The register an instruction writes, as the full 16-bit number the forwarding unit compares (R109,
R118, D22): field2 for ADD and NOR, field1 for LW, none for the others. -/
def destination : Instr → Option Half
  | .add _ _ rd => some rd
  | .nor _ _ rd => some rd
  | .lw _ rt _ => some (rt.zeroExtend 16)
  | .sw _ _ _ => none
  | .beq _ _ _ => none
  | .jalr _ _ _ => none
  | .halt _ _ _ => none
  | .noop _ _ _ => none

/-- The register an instruction in EXMEM forwards to: ADD and NOR only, never LW (R109). -/
def aluDestination : Instr → Option Half
  | .add _ _ rd => some rd
  | .nor _ _ rd => some rd
  | .lw _ _ _ => none
  | .sw _ _ _ => none
  | .beq _ _ _ => none
  | .jalr _ _ _ => none
  | .halt _ _ _ => none
  | .noop _ _ _ => none

/-- The register a LW loads (R107): field1. -/
def loadDestination : Instr → Option Reg
  | .add _ _ _ => none
  | .nor _ _ _ => none
  | .lw _ rt _ => some rt
  | .sw _ _ _ => none
  | .beq _ _ _ => none
  | .jalr _ _ _ => none
  | .halt _ _ _ => none
  | .noop _ _ _ => none

/-- Whether the forwarding unit supplies the operands of an instruction in Execute (R111). -/
def takesForwarding : Instr → Bool
  | .add _ _ _ => true
  | .nor _ _ _ => true
  | .lw _ _ _ => true
  | .sw _ _ _ => true
  | .beq _ _ _ => true
  | .jalr _ _ _ => false
  | .halt _ _ _ => false
  | .noop _ _ _ => false

/-- `isOp(w, HALT)` (R11). -/
def isHalt (w : Word) : Bool :=
  match instrOf w with
  | some (.halt _ _ _) => true
  | _ => false

/-- `isOp(w, BEQ)` (R11). -/
def isBeq (w : Word) : Bool :=
  match instrOf w with
  | some (.beq _ _ _) => true
  | _ => false

/-- `src` of a latch's word; empty for an Undefined word (R106, D16). -/
def sourcesOf (w : Word) : List Reg := ((instrOf w).map sources).getD []

/-- The register the word of a latch writes, if any (R109, R118). -/
def destinationOf (w : Word) : Option Half := (instrOf w).bind destination

/-- The register the word of EXMEM forwards to, if any (R109). -/
def aluDestinationOf (w : Word) : Option Half := (instrOf w).bind aluDestination

/-- The register a LW in a latch loads (R107). -/
def loadDestinationOf (w : Word) : Option Reg := (instrOf w).bind loadDestination

/-- Whether a destination number names register `r`: the full 16 bits are compared (R109, D22). -/
def namesReg (d : Option Half) (r : Reg) : Bool := d == some (r.zeroExtend 16)

/-- `x[r]` (R8): one register of a register file. -/
def readReg (x : Vector Word 8) (r : Reg) : Word := x[r.toNat]

/-- `fwd(r, v0)` (R110): the value read in Decode, overridden by WBEND, then MEMWB, then EXMEM. -/
def forward (s : State) (r : Reg) (v0 : Word) : Word :=
  if namesReg (aluDestinationOf s.exmem.instr) r then s.exmem.aluResult
  else if namesReg (destinationOf s.memwb.instr) r then s.memwb.writeData
  else if namesReg (destinationOf s.wbend.instr) r then s.wbend.writeData
  else v0

/-- Whether the word of IDEX takes forwarding; an Undefined word does not (R111, D16). -/
def takesForwardingOf (w : Word) : Bool := ((instrOf w).map takesForwarding).getD false

/-- Operand `a` of the instruction in Execute (R111). -/
def operandA (s : State) : Word :=
  if takesForwardingOf s.idex.instr then forward s (f0 s.idex.instr) s.idex.readRegA
  else s.idex.readRegA

/-- Operand `b` of the instruction in Execute (R111). -/
def operandB (s : State) : Word :=
  if takesForwardingOf s.idex.instr then forward s (f1 s.idex.instr) s.idex.readRegB
  else s.idex.readRegB

/-- ADD in Execute: the sum modulo 2^32 (R140, D1). -/
def aluAdd (a b : Word) : Word := a + b

/-- NOR in Execute (R141). -/
def aluNor (a b : Word) : Word := ~~~(a ||| b)

/-- LW in Execute: base plus offset, wrapping (R150, R152). -/
def addressLw (a offset : Word) : Word := a + offset

/-- SW in Execute: base plus offset, wrapping (R151, R152). -/
def addressSw (a offset : Word) : Word := a + offset

/-- BEQ in Execute: the difference, zero exactly when the operands are equal (R160). -/
def aluBeq (a b : Word) : Word := a - b

/-- The ALU result where the source defines none; the spec fixes it to 0 (R113, R37, D7). -/
def aluNoResult : Word := 0

/-- `ALU(op, a, b, offset)` (R113). -/
def alu (i : Instr) (a b offset : Word) : Word :=
  match i with
  | .add _ _ _ => aluAdd a b
  | .nor _ _ _ => aluNor a b
  | .lw _ _ _ => addressLw a offset
  | .sw _ _ _ => addressSw a offset
  | .beq _ _ _ => aluBeq a b
  | .jalr _ _ _ => aluNoResult
  | .halt _ _ _ => aluNoResult
  | .noop _ _ _ => aluNoResult

/-- The ALU result of the word in Execute; 0 for an Undefined word (R113, R173). -/
def aluOf (w a b offset : Word) : Word :=
  match instrOf w with
  | some i => alu i a b offset
  | none => aluNoResult

/-- `branchTarget`, computed for every word (R112). -/
def branchTargetOf (offset pcPlus1 : Word) : Word := offset + pcPlus1

end Sys2Proof.Machine
end

