-- ==== Sys2Proof/Machine/Ops.lean ====
section
/-! DEFINITION. The named operations over the stores and registers, raising a fault and halting, the
stage engines, and the rest of a tick that every instruction shares (20_memory.md, 40_pipeline.md,
60_exceptions.md). Every stage reads the snapshot `s` only (R102). -/

namespace Sys2Proof.Machine

/-- The word a cell list holds at an address. -/
def readCells (a : Nat) : List (Nat × Word) → Word
  | [] => Config.unlistedWord
  | (b, u) :: rest => if a = b then u else readCells a rest

/-- A cell with a value, or no cell where the value is what an unlisted address reads as. -/
def consCell (a : Nat) (v : Word) (rest : List (Nat × Word)) : List (Nat × Word) :=
  if v = Config.unlistedWord then rest else (a, v) :: rest

/-- Write one word into a cell list, keeping it in canonical form. -/
def writeCells (a : Nat) (v : Word) : List (Nat × Word) → List (Nat × Word)
  | [] => consCell a v []
  | (b, u) :: rest =>
    if a < b then consCell a v ((b, u) :: rest)
    else if a = b then consCell a v rest
    else (b, u) :: writeCells a v rest

/-- The word of a store at an address (R9). -/
def Store.read (m : Store) (a : Nat) : Word := readCells a m.cells

/-- The store with one word replaced (R9). -/
def Store.write (m : Store) (a : Nat) (v : Word) : Store := ⟨writeCells a v m.cells⟩

/-- The addresses of a cell list rise strictly from `lo`, none is listed that reads as unlisted, and
all lie below `size`. -/
def cellsWf (size : Nat) : Nat → List (Nat × Word) → Bool
  | _, [] => true
  | lo, (a, v) :: rest =>
    decide (lo ≤ a) && decide (a < size) && decide (v ≠ Config.unlistedWord) &&
      cellsWf size (a + 1) rest

/-- The canonical form of a store of `size` words: equal contents are equal data. -/
def Store.wf (size : Nat) (m : Store) : Bool := cellsWf size 0 m.cells

/-- `0 <= s32(a) <= 65535` for a data address (R47, R48). -/
def dataAddressValid (a : Word) : Bool := decide (0 ≤ s32 a ∧ s32 a < Config.dmemWords)

/-- `0 <= a <= 65535` for a fetch address (R49). -/
def fetchAddressValid (a : Word) : Bool := decide (0 ≤ s32 a ∧ s32 a < Config.imemWords)

/-- The store index of a valid address. -/
def addressIndex (a : Word) : Nat := (s32 a).toNat

/-- `MemRead(a, 1)` (R47); `none` where it raises `InvalidAddress(data)`. -/
def memRead (s : State) (a : Word) : Option Word :=
  if dataAddressValid a then some (s.dmem.read (addressIndex a)) else none

/-- `MemWrite(a, 1, v)` (R48): the data store after it; `none` where it raises
`InvalidAddress(data)`. -/
def memWrite (s : State) (a v : Word) : Option Store :=
  if dataAddressValid a then some (s.dmem.write (addressIndex a) v) else none

/-- `IFetch(pc)` (R49); `none` where it raises `InvalidAddress(fetch)`. -/
def instrFetch (s : State) : Option Word :=
  if fetchAddressValid s.pc then some (s.imem.read (addressIndex s.pc)) else none

/-- `raise` (R10, R206): nothing of the tick is committed; the status becomes FAULTED with the fault
and its info. This is the core's whole taking of an exception: there is no handler, saved pc or return
(R200, R210). -/
def raiseFault (s : State) (f : Fault) : State := { s with status := .faulted f }

/-- The halting tick (R101): the status becomes HALTED and nothing else changes. -/
def enterHalted (s : State) : State := { s with status := .halted }

/-- The one register write of a tick (R118). A number outside 0..7 writes nothing (DESIGN
CHOICE, log entry 10); by R117 no such number reaches Writeback. -/
def writeReg (x : Vector Word 8) (d : Option Half) (v : Word) : Vector Word 8 :=
  match d with
  | some r => if h : r.toNat < 8 then x.set r.toNat v else x
  | none => x

/-- The register file after Writeback of the word in MEMWB (R118). -/
def writebackRegs (s : State) : Vector Word 8 :=
  writeReg s.reg (destinationOf s.memwb.instr) s.memwb.writeData

/-- WBEND after a tick: a copy of MEMWB (R31, R118). -/
def writebackLatch (s : State) : WBEND := ⟨s.memwb.instr, s.memwb.writeData⟩

/-- `hazard(i, d)` (R107): a LW in IDEX whose destination the word in IFID reads. -/
def hazard (i d : Word) : Bool :=
  match loadDestinationOf d with
  | some rt => (sourcesOf i).contains rt
  | none => false

/-- `branchTaken(S)` (R114). -/
def branchTaken (s : State) : Bool := isBeq s.exmem.instr && resultIsZero s.exmem.aluResult

/-- The Fetch stage's latch (R104). -/
def fetchLatch (s : State) (w : Word) : IFID := ⟨w, s.pc + 1⟩

/-- The Decode stage (R105): both registers and the offset, for every word. -/
def decodeLatch (s : State) : IDEX :=
  { instr := s.ifid.instr
    pcPlus1 := s.ifid.pcPlus1
    readRegA := readReg s.reg (f0 s.ifid.instr)
    readRegB := readReg s.reg (f1 s.ifid.instr)
    offset := sext16 (f2 s.ifid.instr) }

/-- The Execute stage (R112). It never raises a fault. -/
def executeLatch (s : State) : EXMEM :=
  { instr := s.idex.instr
    branchTarget := branchTargetOf s.idex.offset s.idex.pcPlus1
    aluResult := aluOf s.idex.instr (operandA s) (operandB s) s.idex.offset
    readRegB := operandB s }

/-- What every running tick does behind the Execute stage, whatever the front end does: the result of
the Memory stage goes to MEMWB and `dmem`, MEMWB is written back and copied to WBEND, and the cycle is
counted (R103, R117 to R119). `k` and `writeData` are the word and value the Memory stage answers. -/
def backEnd (s : State) (k writeData : Word) (dmem : Store) : State :=
  { s with
    dmem := dmem
    reg := writebackRegs s
    cycles := s.cycles + 1
    memwb := ⟨k, writeData⟩
    wbend := writebackLatch s }

/-- The front end of a tick with a taken branch: the flush (R115), which also wins over a stall
(R116). -/
def flushFront (s n : State) : State :=
  { n with
    pc := s.exmem.branchTarget
    ifid := IFID.bubble
    idex := IDEX.bubble
    exmem := EXMEM.bubble }

/-- The front end of a stall tick (R108): `pc` and IFID are held, IDEX gets a bubble, Execute runs. -/
def stallFront (s n : State) : State :=
  { n with
    pc := s.pc
    ifid := s.ifid
    idex := IDEX.bubble
    exmem := executeLatch s }

/-- The front end of a tick with neither: fetch (R104), decode (R105) and execute (R112). -/
def advanceFront (s n : State) (w : Word) : State :=
  { n with
    pc := s.pc + 1
    ifid := fetchLatch s w
    idex := decodeLatch s
    exmem := executeLatch s }

/-- The tick of R103 once the Memory stage has answered without a fault: `k` and `writeData` go to
MEMWB, `dmem` is the data store it leaves, `taken` says whether a branch is taken. A fetch whose word
would be latched may still raise `InvalidAddress(fetch)`, and then nothing is committed (R49, R206,
R207). -/
def finishTick (s : State) (k writeData : Word) (dmem : Store) (taken : Bool) : State :=
  let n := backEnd s k writeData dmem
  if taken then flushFront s n
  else if hazard s.ifid.instr s.idex.instr then stallFront s n
  else
    match instrFetch s with
    | some w => advanceFront s n w
    | none => raiseFault s (.invalidAddressFetch s.pc s.cycles)

/-- The Memory stage of ADD and NOR (R117): an illegal destination faults, otherwise the ALU result
passes through. -/
def aluTick (s : State) (k : Word) (rd : Half) : State :=
  if rd.toNat ≤ 7 then finishTick s k s.exmem.aluResult s.dmem false
  else raiseFault s (.invalidInstruction k s.cycles)

/-- The Memory stage of LW (R117, R150). -/
def loadTick (s : State) (k : Word) : State :=
  match memRead s s.exmem.aluResult with
  | some v => finishTick s k v s.dmem false
  | none => raiseFault s (.invalidAddressData s.exmem.aluResult k s.cycles)

/-- The Memory stage of SW (R117, R151): the write data of the latch is the don't-care 0 (R37). -/
def storeTick (s : State) (k : Word) : State :=
  match memWrite s s.exmem.aluResult s.exmem.readRegB with
  | some m => finishTick s k 0 m false
  | none => raiseFault s (.invalidAddressData s.exmem.aluResult k s.cycles)

/-- The Memory stage of BEQ (R117, R160): taken exactly when the ALU result is zero (R114). -/
def branchTick (s : State) (k : Word) : State :=
  finishTick s k 0 s.dmem (resultIsZero s.exmem.aluResult)

/-- The Memory stage of an instruction with no effect (R117, R170 to R172). -/
def plainTick (s : State) (k : Word) : State := finishTick s k 0 s.dmem false

/-- The tick with an Undefined word in the Memory stage (R117, R173). -/
def undefinedTick (s : State) : State :=
  raiseFault s (.invalidInstruction s.exmem.instr s.cycles)

end Sys2Proof.Machine
end

