-- ==== Sys2Proof/Machine/Alu.lean ====
section
/-! DEFINITION. ADD and NOR (41_alu.md rules R140, R141): the tick in which the instruction is in the
Memory stage. What Execute computes for them is `aluAdd` and `aluNor` (Operands.lean), what Writeback
does is `writebackRegs` (Ops.lean). -/

namespace Sys2Proof.Machine

/-- ADD (R140) in the Memory stage of the tick. -/
def execAdd (rs rt : Reg) (rd : Half) (s : State) : Host.Outcome State Fault Refusal :=
  .next (aluTick s (encode (.add rs rt rd)) rd)

/-- NOR (R141) in the Memory stage of the tick. -/
def execNor (rs rt : Reg) (rd : Half) (s : State) : Host.Outcome State Fault Refusal :=
  .next (aluTick s (encode (.nor rs rt rd)) rd)

end Sys2Proof.Machine
end

