-- ==== Sys2Proof/Machine/Branch.lean ====
section
/-! DEFINITION. BEQ (43_branch.md rule R160): the tick in which it is in the Memory stage, which
resolves it. -/

namespace Sys2Proof.Machine

/-- BEQ (R160) in the Memory stage of the tick: flush and redirect when its ALU result is zero. -/
def execBeq (rs rt : Reg) (off : Half) (s : State) : Host.Outcome State Fault Refusal :=
  .next (branchTick s (encode (.beq rs rt off)))

end Sys2Proof.Machine
end

