-- ==== Sys2Proof/Machine/LoadStore.lean ====
section
/-! DEFINITION. LW and SW (42_loadstore.md rules R150, R151): the tick in which the instruction is in
the Memory stage, which makes the one data access. -/

namespace Sys2Proof.Machine

/-- LW (R150) in the Memory stage of the tick. -/
def execLw (rs rt : Reg) (off : Half) (s : State) : Host.Outcome State Fault Refusal :=
  .next (loadTick s (encode (.lw rs rt off)))

/-- SW (R151) in the Memory stage of the tick. -/
def execSw (rs rt : Reg) (off : Half) (s : State) : Host.Outcome State Fault Refusal :=
  .next (storeTick s (encode (.sw rs rt off)))

end Sys2Proof.Machine
end

