-- ==== Sys2Proof/Machine/System.lean ====
section
/-! DEFINITION. JALR, HALT and NOOP (44_system.md rules R170 to R172): the tick in which the
instruction is in the Memory stage. -/

namespace Sys2Proof.Machine

/-- JALR (R170): reserved, no effect in any stage. -/
def execJalr (a b : Reg) (c : Half) (s : State) : Host.Outcome State Fault Refusal :=
  .next (plainTick s (encode (.jalr a b c)))

/-- HALT (R171): no effect in the Memory stage; its word goes to MEMWB, where the halt check of the
next tick finds it (R101). -/
def execHalt (a b : Reg) (c : Half) (s : State) : Host.Outcome State Fault Refusal :=
  .next (plainTick s (encode (.halt a b c)))

/-- NOOP (R172). -/
def execNoop (a b : Reg) (c : Half) (s : State) : Host.Outcome State Fault Refusal :=
  .next (plainTick s (encode (.noop a b c)))

end Sys2Proof.Machine
end

