-- ==== Sys2Proof/Machine/Dispatch.lean ====
section
/-! DEFINITION. `exec i s`: the running tick of snapshot `s` with instruction `i` in the Memory stage,
where an instruction is certain to commit, faults, stores and resolves its branch (log entry 1;
00_scope.md R13, 40_pipeline.md R103, R117). -/

namespace Sys2Proof.Machine

def exec (i : Instr) (s : State) : Host.Outcome State Fault Refusal :=
  match i with
  | .add rs rt rd => Sys2Proof.Machine.execAdd rs rt rd s
  | .nor rs rt rd => Sys2Proof.Machine.execNor rs rt rd s
  | .lw rs rt off => Sys2Proof.Machine.execLw rs rt off s
  | .sw rs rt off => Sys2Proof.Machine.execSw rs rt off s
  | .beq rs rt off => Sys2Proof.Machine.execBeq rs rt off s
  | .jalr a b c => Sys2Proof.Machine.execJalr a b c s
  | .halt a b c => Sys2Proof.Machine.execHalt a b c s
  | .noop a b c => Sys2Proof.Machine.execNoop a b c s

end Sys2Proof.Machine
end

