-- ==== Sys2Proof/Machine/Step.lean ====
section
/-! DEFINITION. One step is one tick of the Clock Controller (40_pipeline.md R100, R103). -/

namespace Sys2Proof.Machine

/-- One tick (R103). In HALTED and FAULTED a step changes nothing (R225). In RUNNING the halt check
comes first (R101); then the word in EXMEM, the instruction this tick commits, runs by `exec`, or
faults where it is Undefined (R117, R173). -/
def step (s : State) : Host.Outcome State Fault Refusal :=
  match s.status with
  | .running =>
    if isHalt s.memwb.instr then .next (enterHalted s)
    else
      match instrOf s.exmem.instr with
      | some i => exec i s
      | none => .next (undefinedTick s)
  | .halted => .next s
  | .faulted _ => .next s

/-- The instruction word `w` placed where `step` takes the instruction it runs. In this pipeline a
fetched word runs three ticks after its fetch, when it is in EXMEM; this is the state in which the
Fetch at `pc`, the Decode and the Execute of `w` are done, with the register values of `s`, so that
the very next `step` runs it. Only EXMEM changes (log entry 3). -/
def State.withFetchWord (s : State) (nbits w : Nat) : State :=
  let word := BitVec.ofNat 32 (w % 2 ^ nbits)
  let decoded := { s with idex := decodeLatch { s with ifid := fetchLatch s word } }
  { s with exmem := executeLatch decoded }

end Sys2Proof.Machine
end

