-- ==== Sys2Proof/Machine/Sequential.lean ====
section
/-! DEFINITION. The machine with no pipeline: the instructions of a program executed one at a time in
program order, each with the effect its rule gives it (R140, R141, R150, R151, R160, R170 to R173).
R226 says that the results of a program on the core equal those of this machine. How a fetched word is
told from a bubble, and which instructions a pipeline state counts as done, is the model's reading (log
entry 12, DEDUCED). -/

namespace Sys2Proof.Machine

/-- What the instructions of a program can change, and whether a HALT has been executed. -/
structure SeqState where
  /-- Address of the next instruction to execute. -/
  pc : Word
  reg : Vector Word 8
  dmem : Store
  halted : Bool
deriving DecidableEq, Repr

/-- The effect of one instruction at address `q.pc`; `none` where its rule raises a fault. -/
def seqExec (i : Instr) (q : SeqState) : Option SeqState :=
  match i with
  | .add rs rt rd =>
    if rd.toNat ≤ 7 then
      some { q with
        pc := q.pc + 1
        reg := writeReg q.reg (some rd) (readReg q.reg rs + readReg q.reg rt) }
    else none
  | .nor rs rt rd =>
    if rd.toNat ≤ 7 then
      some { q with
        pc := q.pc + 1
        reg := writeReg q.reg (some rd) (~~~(readReg q.reg rs ||| readReg q.reg rt)) }
    else none
  | .lw rs rt off =>
    let a := readReg q.reg rs + sext16 off
    if dataAddressValid a then
      some { q with
        pc := q.pc + 1
        reg := writeReg q.reg (some (rt.zeroExtend 16)) (q.dmem.read (addressIndex a)) }
    else none
  | .sw rs rt off =>
    let a := readReg q.reg rs + sext16 off
    if dataAddressValid a then
      some { q with
        pc := q.pc + 1
        dmem := q.dmem.write (addressIndex a) (readReg q.reg rt) }
    else none
  | .beq rs rt off =>
    if readReg q.reg rs = readReg q.reg rt then some { q with pc := q.pc + 1 + sext16 off }
    else some { q with pc := q.pc + 1 }
  | .jalr _ _ _ => some { q with pc := q.pc + 1 }
  | .halt _ _ _ => some { q with pc := q.pc + 1, halted := true }
  | .noop _ _ _ => some { q with pc := q.pc + 1 }

/-- One instruction of the program in `imem`; nothing once halted, `none` on a fault. -/
def seqStep (imem : Store) (q : SeqState) : Option SeqState :=
  if q.halted then some q
  else if fetchAddressValid q.pc then
    (instrOf (imem.read (addressIndex q.pc))).bind (fun i => seqExec i q)
  else none

/-- `n` instructions. -/
def seqRun (imem : Store) : Nat → SeqState → Option SeqState
  | 0, q => some q
  | n + 1, q => (seqStep imem q).bind (seqRun imem n)

/-- Whether IFID holds a fetched word and not a bubble: a fetched word's `pcPlus1` is not 0. -/
def ifidLive (s : State) : Bool := decide (s.ifid.pcPlus1 ≠ 0)

/-- Whether IDEX holds a fetched word and not a bubble. -/
def idexLive (s : State) : Bool := decide (s.idex.pcPlus1 ≠ 0)

/-- The `pcPlus1` of the word in EXMEM, got back from its `branchTarget` (R112). -/
def exmemPcPlus1 (s : State) : Word := s.exmem.branchTarget - sext16 (f2 s.exmem.instr)

/-- Whether EXMEM holds a fetched word and not a bubble. -/
def exmemLive (s : State) : Bool := decide (exmemPcPlus1 s ≠ 0)

/-- The address of the next instruction to commit: that of the oldest fetched word in EXMEM, IDEX and
IFID, or `pc` where there is none. -/
def commitPc (s : State) : Word :=
  if exmemLive s then exmemPcPlus1 s - 1
  else if idexLive s then s.idex.pcPlus1 - 1
  else if ifidLive s then s.ifid.pcPlus1 - 1
  else s.pc

/-- The sequential state a pipeline state stands for: everything up to the instruction in MEMWB has
happened, nothing from EXMEM on has. -/
def seqOf (s : State) : SeqState :=
  { pc := commitPc s
    reg := writebackRegs s
    dmem := s.dmem
    halted := isHalt s.memwb.instr }

end Sys2Proof.Machine
end

