-- ==== Sys2Proof/Machine/Tally.lean ====
section
/-! DEFINITION. The counts of the cycle law (70_reset_and_hazards.md R232), kept beside a run
(log entry 12, DEDUCED). -/

namespace Sys2Proof.Machine

/-- The three counts of R232. -/
structure Tally where
  /-- `C`: instruction words written back, program NOOP and JALR words included, bubbles and the final
  HALT excluded. -/
  written : Nat
  /-- `S`: ticks in which a stall took effect, not counting one in the last running tick. -/
  stalls : Nat
  /-- `T`: taken branches. -/
  taken : Nat
deriving DecidableEq, Repr

/-- What one tick from `s` adds to the counts; `t` is the state after it. Only a tick that ran counts,
that is one that raised `cycles`. A word is counted when it passes from EXMEM to MEMWB, since every
such word but a HALT is written back by the time the core halts; the last running tick is the one that
moves a HALT there. -/
def Tally.add (c : Tally) (s t : State) : Tally :=
  if t.cycles = s.cycles then c
  else
    { written := c.written + (if exmemLive s && !isHalt s.exmem.instr then 1 else 0)
      stalls := c.stalls +
        (if hazard s.ifid.instr s.idex.instr && !branchTaken s && !isHalt s.exmem.instr then 1 else 0)
      taken := c.taken + (if branchTaken s then 1 else 0) }

/-- The bubbles in IFID, IDEX and EXMEM: those that have yet to pass to MEMWB. -/
def bubblesInFlight (s : State) : Nat :=
  (if ifidLive s then 0 else 1) + (if idexLive s then 0 else 1) + (if exmemLive s then 0 else 1)

/-- `cycles` is the number of words and bubbles that have passed from EXMEM to MEMWB (R232): the
counted words, and of the three reset bubbles, one for each stall and three for each taken branch,
those no longer in flight. With a HALT in MEMWB the HALT is one word more, and every bubble counted has
passed. -/
structure CountsAccountForCycles (s : State) (c : Tally) : Prop where
  before_halt : isHalt s.memwb.instr = false →
    s.cycles + bubblesInFlight s = c.written + 3 + c.stalls + 3 * c.taken
  at_halt : isHalt s.memwb.instr = true → s.cycles = c.written + 4 + c.stalls + 3 * c.taken

/-- `n` steps with the counts; it stops counting where a step does not answer a next state. -/
def runTally : Nat → State × Tally → State × Tally
  | 0, p => p
  | n + 1, (s, c) =>
    match step s with
    | .next t => runTally n (t, c.add s t)
    | .fault _ => (s, c)
    | .refused _ => (s, c)

end Sys2Proof.Machine
end

