-- ==== Sys2Proof/Machine/Tick.lean ====
section
/-! DEFINITION. The tick written out as the pseudocode of 40_pipeline.md R103 has it: one next state
built stage by stage, later assignments overriding earlier ones where R103 says so. It is a second
description of what `step` does, beside the dispatch by instruction; that the two are equal is an
obligation. -/

namespace Sys2Proof.Machine

/-- What the Memory stage answers (R117): the write data, and the word it stores, if any. -/
structure MemOut where
  writeData : Word
  /-- Address and value of the store. -/
  store : Option (Word × Word)
deriving DecidableEq, Repr

/-- `memoryStage(S)` (R117). -/
def memoryStage (s : State) : Except Fault MemOut :=
  let k := s.exmem.instr
  match instrOf k with
  | none => .error (.invalidInstruction k s.cycles)
  | some (.add _ _ rd) =>
    if 7 < rd.toNat then .error (.invalidInstruction k s.cycles)
    else .ok ⟨s.exmem.aluResult, none⟩
  | some (.nor _ _ rd) =>
    if 7 < rd.toNat then .error (.invalidInstruction k s.cycles)
    else .ok ⟨s.exmem.aluResult, none⟩
  | some (.lw _ _ _) =>
    if dataAddressValid s.exmem.aluResult then
      .ok ⟨s.dmem.read (addressIndex s.exmem.aluResult), none⟩
    else .error (.invalidAddressData s.exmem.aluResult k s.cycles)
  | some (.sw _ _ _) =>
    if dataAddressValid s.exmem.aluResult then
      .ok ⟨0, some (s.exmem.aluResult, s.exmem.readRegB)⟩
    else .error (.invalidAddressData s.exmem.aluResult k s.cycles)
  | some (.beq _ _ _) => .ok ⟨0, none⟩
  | some (.jalr _ _ _) => .ok ⟨0, none⟩
  | some (.halt _ _ _) => .ok ⟨0, none⟩
  | some (.noop _ _ _) => .ok ⟨0, none⟩

/-- `fetchStage(S, N)` (R104, R49). -/
def fetchStage (s n : State) : Except Fault State :=
  if fetchAddressValid s.pc then
    .ok { n with
      ifid := ⟨s.imem.read (addressIndex s.pc), s.pc + 1⟩
      pc := s.pc + 1 }
  else .error (.invalidAddressFetch s.pc s.cycles)

/-- `decodeStage(S, N)` (R105). -/
def decodeStage (s n : State) : State := { n with idex := decodeLatch s }

/-- `stallEffect(S, N)` (R108). -/
def stallEffect (s n : State) : State :=
  { n with pc := s.pc, ifid := s.ifid, idex := IDEX.bubble }

/-- `executeStage(S, N)` (R112). -/
def executeStage (s n : State) : State := { n with exmem := executeLatch s }

/-- `N.MEMWB <- memOut.latch; apply memOut.store to N.dmem` (R103). -/
def applyMemory (s n : State) (out : MemOut) : State :=
  { n with
    memwb := ⟨s.exmem.instr, out.writeData⟩
    dmem :=
      match out.store with
      | some (a, v) => n.dmem.write (addressIndex a) v
      | none => n.dmem }

/-- `flush(S, N)` (R115). -/
def flush (s n : State) : State :=
  { n with
    ifid := IFID.bubble
    idex := IDEX.bubble
    exmem := EXMEM.bubble
    pc := s.exmem.branchTarget }

/-- `writebackStage(S, N)` (R118). -/
def writebackStage (s n : State) : State :=
  { n with
    reg := writeReg n.reg (destinationOf s.memwb.instr) s.memwb.writeData
    wbend := ⟨s.memwb.instr, s.memwb.writeData⟩ }

/-- The stages of a running tick after the Memory stage has answered (R103, from `N := copy of S`). -/
def tickStages (s : State) (out : MemOut) : Except Fault State :=
  let taken := branchTaken s
  let stall := hazard s.ifid.instr s.idex.instr
  match (if !stall && !taken then fetchStage s s else .ok s) with
  | .error f => .error f
  | .ok n =>
    let n := decodeStage s n
    let n := if stall && !taken then stallEffect s n else n
    let n := executeStage s n
    let n := applyMemory s n out
    let n := if taken then flush s n else n
    let n := writebackStage s n
    .ok { n with cycles := s.cycles + 1 }

/-- `tick()` (R103). -/
def tick (s : State) : State :=
  match s.status with
  | .halted => s
  | .faulted _ => s
  | .running =>
    if isHalt s.memwb.instr then { s with status := .halted }
    else
      match memoryStage s with
      | .error f => raiseFault s f
      | .ok out =>
        match tickStages s out with
        | .error f => raiseFault s f
        | .ok n => n

end Sys2Proof.Machine
end

