-- ==== Sys2Proof/Machine/Load.lean ====
section
/-! DEFINITION. The host interface (70_reset_and_hazards.md rules R220, R223): `load`, and what
`step()` and `snapshot()` report. `step()` itself is `step` (Step.lean). -/

namespace Sys2Proof.Machine

/-- The cells of a store that holds the given words from address `a` on. -/
def cellsOfWords : Nat → List Word → List (Nat × Word)
  | _, [] => []
  | a, v :: rest => consCell a v (cellsOfWords (a + 1) rest)

/-- A store that holds the given words from address 0 on. -/
def storeOfWords (ws : List Word) : Store := ⟨cellsOfWords 0 ws⟩

/-- Whether an image value is a 32-bit signed value (R220). -/
def imageValueValid (v : Int) : Bool := decide (-2 ^ 31 ≤ v ∧ v < 2 ^ 31)

/-- The index of the first word of the image that cannot be loaded: the first at or beyond the
capacity or outside the 32-bit range, in load order (R202, RS-2, RS-3; log entry 5). -/
def badImageWord : Nat → List Int → Option Nat
  | _, [] => none
  | a, v :: rest =>
    if a < Config.imemWords ∧ imageValueValid v then badImageWord (a + 1) rest else some a

/-- The words of the image, then `UNLOADED` up to the capacity of the stores (R220). -/
def imageContents (unloaded : Nat → Word) (img : List Int) : List Word :=
  img.map (BitVec.ofInt 32) ++
    (List.range' img.length (Config.imemWords - img.length)).map unloaded

/-- `load(img)` (R220): a fresh state, or `LoadError` and no state. `unloaded` is the open parameter
`UNLOADED` (R5, D6). Nothing of an earlier run survives (D25): the operation takes no state. -/
def load (unloaded : Nat → Word) (img : List Int) : Host.Outcome State Fault Refusal :=
  match badImageWord 0 img with
  | some a => .fault (.loadError a)
  | none =>
    let m := storeOfWords (imageContents unloaded img)
    .next (State.loaded m m)

/-- What `step()` reports (R223, D24). -/
structure StepResult where
  /-- `cycles` after the tick. -/
  cyclesSoFar : Nat
  /-- Whether the status is HALTED after the tick. -/
  halted : Bool
  /-- In FAULTED, the fault. -/
  fault : Option Fault
deriving DecidableEq, Repr

/-- The fault a status carries. -/
def Status.fault? : Status → Option Fault
  | .running => none
  | .halted => none
  | .faulted f => some f

/-- The `StepResult` of a `step()` that left state `s` (R223). -/
def stepResult (s : State) : StepResult :=
  { cyclesSoFar := s.cycles
    halted := decide (s.status = .halted)
    fault := s.status.fault? }

/-- `snapshot()` (R223): the full state; it changes nothing. -/
def snapshot (s : State) : State := s

/-- The numeric code of a fault (R201, D20). -/
def Fault.code : Fault → Nat
  | .loadError _ => 1
  | .invalidInstruction _ _ => 2
  | .invalidAddressData _ _ _ => 3
  | .invalidAddressFetch _ _ => 4

end Sys2Proof.Machine
end

