-- ==== Sys2Proof/WellFormed.lean ====
section
/-! DEFINITION. The legal forms of the opcode map (30_encoding.md rules R65, R66, R68). -/

namespace Sys2Proof

/-- The one extra constraint of R66: the destination of ADD and NOR is a register index,
`w[15:3] = 0`. Every other form is legal with every field value. -/
def Instr.wellFormed : Instr → Bool
  | .add _ _ rd => decide (rd.toNat ≤ 7)
  | .nor _ _ rd => decide (rd.toNat ≤ 7)
  | .lw _ _ _ => true
  | .sw _ _ _ => true
  | .beq _ _ _ => true
  | .jalr _ _ _ => true
  | .halt _ _ _ => true
  | .noop _ _ _ => true

end Sys2Proof
end

