-- ==== Sys2Proof/Safety.lean ====
section
/-! DEFINITION. The terms statements about the core use: what a tick that runs does to every element of
the state, and the invariants every tick keeps. -/

namespace Sys2Proof.Machine

/-- A tick that passes the halt check (R101, R103): status RUNNING and no HALT in MEMWB. -/
def RunsTick (s : State) : Prop := s.status = .running ∧ isHalt s.memwb.instr = false

/-- The fetch of this tick raises nothing: it is not performed (a stall), or `pc` is in range (R49). -/
def FetchOk (s : State) : Prop :=
  hazard s.ifid.instr s.idex.instr = true ∨ s.pc.toNat < 65536

/-- An effective address inside the data store (R47, R48). -/
def DataAddressOk (a : Word) : Prop := 0 ≤ s32 a ∧ s32 a ≤ 65535

/-- What every tick that commits does, whatever instruction is in the Memory stage (R24, R118, R119):
each register holds the write data of MEMWB if the word there writes it and its old value otherwise,
WBEND is the old MEMWB, `cycles` rises by 1, and the instruction store and status stay. -/
structure CommitsTick (s t : State) : Prop where
  reg : ∀ r : Reg, readReg t.reg r =
    if namesReg (destinationOf s.memwb.instr) r then s.memwb.writeData else readReg s.reg r
  wbend : t.wbend = ⟨s.memwb.instr, s.memwb.writeData⟩
  cycles : t.cycles = s.cycles + 1
  imem : t.imem = s.imem
  status : t.status = s.status

/-- The front end of a tick with no taken branch (R104, R105, R108, R112): Execute runs; on a load-use
hazard `pc` and IFID are held and IDEX gets a bubble, otherwise the word at `pc` is fetched and the
word of IFID decoded. -/
structure FrontAdvances (s t : State) : Prop where
  exmem_instr : t.exmem.instr = s.idex.instr
  exmem_target : t.exmem.branchTarget = s.idex.offset + s.idex.pcPlus1
  exmem_result : t.exmem.aluResult =
    aluOf s.idex.instr (operandA s) (operandB s) s.idex.offset
  exmem_readRegB : t.exmem.readRegB = operandB s
  stall : hazard s.ifid.instr s.idex.instr = true →
    t.pc = s.pc ∧ t.ifid = s.ifid ∧ t.idex = ⟨Config.noopWord, 0, 0, 0, 0⟩
  fetch : hazard s.ifid.instr s.idex.instr = false →
    t.pc = s.pc + 1 ∧ t.ifid = ⟨s.imem.read s.pc.toNat, s.pc + 1⟩ ∧
    t.idex = ⟨s.ifid.instr, s.ifid.pcPlus1, readReg s.reg (f0 s.ifid.instr),
      readReg s.reg (f1 s.ifid.instr), sext16 (f2 s.ifid.instr)⟩

/-- The front end of a tick with a taken branch (R115): IFID, IDEX and EXMEM are bubbles and `pc` is the
branch target. -/
structure FrontFlushed (s t : State) : Prop where
  pc : t.pc = s.exmem.branchTarget
  ifid : t.ifid = ⟨Config.noopWord, 0⟩
  idex : t.idex = ⟨Config.noopWord, 0, 0, 0, 0⟩
  exmem : t.exmem = ⟨Config.noopWord, 0, 0, 0⟩

/-- A word whose instruction is legal (R66): neither Undefined nor an ADD or NOR with field2 above 7. -/
def legalWord (w : Word) : Bool := ((instrOf w).map Instr.wellFormed).getD false

/-- The word is an ADD or NOR whose field2 is register `r`: what EXMEM forwards (R109). -/
def AluWrites (w : Word) (r : Reg) : Prop :=
  ∃ a b d, (w = encode (.add a b d) ∨ w = encode (.nor a b d)) ∧ d.toNat = r.toNat

/-- The word is an ADD or NOR whose field2 is register `r`, or a LW whose field1 is: what MEMWB and
WBEND forward, and what Writeback writes (R109, R118). -/
def WritesReg (w : Word) (r : Reg) : Prop :=
  AluWrites w r ∨ ∃ a c, w = encode (.lw a r c)

/-- The word reads register `r` as the hazard unit sees it (R106): field0 or field1 of an ADD, NOR, BEQ
or SW, field0 of a LW, and nothing for any other word. -/
def ReadsReg (w : Word) (r : Reg) : Prop :=
  (∃ a b c, (w = encode (.add a b c) ∨ w = encode (.nor a b c) ∨ w = encode (.beq a b c) ∨
    w = encode (.sw a b c)) ∧ (r = a ∨ r = b)) ∨
  ∃ a b c, w = encode (.lw a b c) ∧ r = a

/-- The tick from `s` committed and led to `t` (R120): it neither halted nor faulted. -/
def Ticks (s t : State) : Prop := s.status = .running ∧ step s = .next t ∧ t.status = .running

/-- The register value the instruction in Execute must see: the one left when the two older
instructions still in EXMEM and MEMWB have finished (R226, R227). -/
def programReg (s : State) (r : Reg) : Word :=
  if namesReg (destinationOf s.exmem.instr) r then
    (if loadDestinationOf s.exmem.instr = some r then s.dmem.read (addressIndex s.exmem.aluResult)
     else s.exmem.aluResult)
  else if namesReg (destinationOf s.memwb.instr) r then s.memwb.writeData
  else readReg s.reg r

/-- The form every reachable state has: canonical stores, legal words behind the Memory stage (R117),
the don't-care fields the spec fixes to 0 (R37, D7), and the ranges of D19 in which no address value
overflows. -/
structure StateWf (s : State) : Prop where
  imem : s.imem.wf Config.imemWords = true
  dmem : s.dmem.wf Config.dmemWords = true
  memwb_legal : legalWord s.memwb.instr = true
  wbend_legal : legalWord s.wbend.instr = true
  memwb_zero : destinationOf s.memwb.instr = none → s.memwb.writeData = 0
  wbend_zero : destinationOf s.wbend.instr = none → s.wbend.writeData = 0
  exmem_zero : takesForwardingOf s.exmem.instr = false → s.exmem.aluResult = 0
  idex_offset : s.idex.offset = sext16 (f2 s.idex.instr)
  ifid_range : s.ifid.pcPlus1.toNat ≤ 65536
  idex_range : s.idex.pcPlus1.toNat ≤ 65536
  ifid_zero : s.ifid.pcPlus1 = 0 → s.ifid.instr = Config.noopWord
  idex_zero : s.idex.pcPlus1 = 0 → s.idex.instr = Config.noopWord
  target_range : isBeq s.exmem.instr = true →
    -32767 ≤ s32 s.exmem.branchTarget ∧ s32 s.exmem.branchTarget ≤ 98303
  pc_range : -32767 ≤ s32 s.pc ∧ s32 s.pc ≤ 98303
  status : ∀ n, s.status ≠ .faulted (.loadError n)

/-- What ties the latches of a reachable state to the program: a latch is a bubble or holds the word of
the instruction store at the address before its `pcPlus1`, the fetched words follow one another in
program order up to `pc`, IDEX holds register values that are stale only where WBEND supplies the new
one (R22), no load feeds the instruction directly behind it (R107, R108), and EXMEM holds the result
for the register values the program has there. -/
structure PipelineInv (s : State) : Prop where
  ifid_live : ifidLive s = true →
    s.ifid.pcPlus1.toNat ≤ 65536 ∧ s.ifid.instr = s.imem.read (s.ifid.pcPlus1.toNat - 1) ∧
    s.pc = s.ifid.pcPlus1
  ifid_bubble : ifidLive s = false → s.ifid = IFID.bubble
  idex_live : idexLive s = true →
    s.idex.pcPlus1.toNat ≤ 65536 ∧ s.idex.instr = s.imem.read (s.idex.pcPlus1.toNat - 1) ∧
    s.idex.offset = sext16 (f2 s.idex.instr) ∧ ifidLive s = true ∧
    s.ifid.pcPlus1 = s.idex.pcPlus1 + 1
  idex_bubble : idexLive s = false →
    s.idex.instr = Config.noopWord ∧ s.idex.offset = 0
  exmem_live : exmemLive s = true →
    (exmemPcPlus1 s).toNat ≤ 65536 ∧
    s.exmem.instr = s.imem.read ((exmemPcPlus1 s).toNat - 1) ∧ ifidLive s = true ∧
    (if idexLive s then s.idex.pcPlus1 else s.ifid.pcPlus1) = exmemPcPlus1 s + 1
  exmem_bubble : exmemLive s = false →
    s.exmem.instr = Config.noopWord ∧ s.exmem.aluResult = 0
  exmem_stall : exmemLive s = true → idexLive s = false →
    loadDestinationOf s.exmem.instr ≠ none
  wbend_written : ∀ r, namesReg (destinationOf s.wbend.instr) r = true →
    readReg s.reg r = s.wbend.writeData
  idex_readRegA : takesForwardingOf s.idex.instr = true →
    namesReg (destinationOf s.wbend.instr) (f0 s.idex.instr) = false →
    s.idex.readRegA = readReg s.reg (f0 s.idex.instr)
  idex_readRegB : takesForwardingOf s.idex.instr = true →
    namesReg (destinationOf s.wbend.instr) (f1 s.idex.instr) = false →
    s.idex.readRegB = readReg s.reg (f1 s.idex.instr)
  no_load_use : ∀ r ∈ sourcesOf s.idex.instr, loadDestinationOf s.exmem.instr ≠ some r
  exmem_result : takesForwardingOf s.exmem.instr = true →
    s.exmem.aluResult =
      aluOf s.exmem.instr (readReg (writebackRegs s) (f0 s.exmem.instr))
        (readReg (writebackRegs s) (f1 s.exmem.instr)) (sext16 (f2 s.exmem.instr))
  exmem_stored : f1 s.exmem.instr ∈ sourcesOf s.exmem.instr →
    s.exmem.readRegB = readReg (writebackRegs s) (f1 s.exmem.instr)

end Sys2Proof.Machine
end

