-- ==== Sys2Proof/Certificates/Slice0/Obligations.lean ====
section
/-! DEFINITION. The statements for the provers. Each docstring names the rule of spec/ it formalises.

In this pipeline the instruction a tick runs is the one in EXMEM, where it is certain to commit (R13):
`exec i s` is the running tick of snapshot `s` with `i` there. Execute has computed its result one tick
earlier (`AluTable` below), Writeback writes it one tick later (`WritebackWritesDestination`). -/

open Sys2Proof Sys2Proof.Machine

/-! ### Encoding -/

/-- R60, R66, R69: the decoder gives every instruction back from its word, at every field value. -/
def Obligations.DecodeOfEncode : Prop :=
  ∀ i : Instr, decode (encode i) = .ok i

/-- R69: where the bits of a word are, and encoding what was decoded gives the word back. -/
def Obligations.EncodeOfDecode : Prop :=
  (∀ i : Instr,
    (encode i).extractLsb' 25 7 = 0 ∧
    ((encode i).extractLsb' 22 3).toNat = i.opcode ∧
    (encode i).extractLsb' 19 3 = i.field0 ∧
    (encode i).extractLsb' 16 3 = i.field1 ∧
    (encode i).extractLsb' 0 16 = i.field2) ∧
  ∀ (w : Word) (i : Instr), decode w = .ok i → encode i = w

/-- R62: the opcode is defined, and is `w[24:22]`, exactly when `w[31:25] = 0`, which is exactly when
`opcodeRaw(w)` is in 0..7; otherwise the word is Undefined. -/
def Obligations.OpcodeValidity : Prop :=
  ∀ w : Word,
    (w.extractLsb' 25 7 = 0 ↔ 0 ≤ opcodeRaw w ∧ opcodeRaw w ≤ 7) ∧
    (w.extractLsb' 25 7 = 0 → ∃ i, decode w = .ok i ∧ i.opcode = (w.extractLsb' 22 3).toNat) ∧
    (w.extractLsb' 25 7 ≠ 0 → decode w = .error (.undefinedOpcode (opcodeRaw w)))

/-- The words of vectors EN-1 to EN-8, EN-13 and EN-15, one or more for every opcode, decode to the
instructions the vectors name, and the words of EN-9 to EN-12 are Undefined with the opcode value they
name. -/
def Obligations.SampleWordsDecode : Prop :=
  decode 0x00810000#32 = .ok (.lw 0 1 0) ∧
  decode 0x0100FFFC#32 = .ok (.beq 0 0 65532) ∧
  decode 0x000A0003#32 = .ok (.add 1 2 3) ∧
  decode 0x00400004#32 = .ok (.nor 0 0 4) ∧
  decode 0x01490000#32 = .ok (.jalr 1 1 0) ∧
  decode 0x01FFFFFF#32 = .ok (.noop 7 7 65535) ∧
  decode 0x01C00000#32 = .ok (.noop 0 0 0) ∧
  decode 0x01800000#32 = .ok (.halt 0 0 0) ∧
  decode 0x00000008#32 = .ok (.add 0 0 8) ∧
  decode 0x00C3000A#32 = .ok (.sw 0 3 10) ∧
  decode 0xFFFFFFFF#32 = .error (.undefinedOpcode (-1)) ∧
  decode 0x02000000#32 = .error (.undefinedOpcode 8) ∧
  decode 0xFE000000#32 = .error (.undefinedOpcode (-8)) ∧
  decode 0x7FFFFFFF#32 = .error (.undefinedOpcode 511)

/-! ### Load and reset -/

/-- R38: the value of every state element after the load operation, for every image that can be loaded
and every value of the parameter `UNLOADED`. -/
def Obligations.LoadEstablishesResetValues : Prop :=
  ∀ (unloaded : Nat → Word) (img : List Int), img.length ≤ 65536 →
    (∀ v ∈ img, -2 ^ 31 ≤ v ∧ v < 2 ^ 31) →
    ∃ s, load unloaded img = .next s ∧
      s.pc = 0 ∧ (∀ r : Reg, readReg s.reg r = 0) ∧ s.cycles = 0 ∧
      (∀ a, (h : a < img.length) →
        s.imem.read a = BitVec.ofInt 32 img[a] ∧ s.dmem.read a = BitVec.ofInt 32 img[a]) ∧
      (∀ a, img.length ≤ a → a < 65536 →
        s.imem.read a = unloaded a ∧ s.dmem.read a = unloaded a) ∧
      s.ifid = ⟨0x01C00000, 0⟩ ∧ s.idex = ⟨0x01C00000, 0, 0, 0, 0⟩ ∧
      s.exmem = ⟨0x01C00000, 0, 0, 0⟩ ∧ s.memwb = ⟨0x01C00000, 0⟩ ∧
      s.wbend = ⟨0x01C00000, 0⟩ ∧ s.status = .running

/-- R202, R220 (D13): an image longer than 65536 words, or with a value outside `-2^31..2^31-1`, raises
`LoadError` and gives no state. That the index recorded is the first offending one in load order is
the model's choice (log entry 5). -/
def Obligations.LoadErrorsOnBadImage : Prop :=
  ∀ (unloaded : Nat → Word) (img : List Int),
    ¬ (img.length ≤ 65536 ∧ ∀ v ∈ img, -2 ^ 31 ≤ v ∧ v < 2 ^ 31) →
    ∃ k, ∃ h : k < img.length, load unloaded img = .fault (.loadError k) ∧
      (65536 ≤ k ∨ ¬ (-2 ^ 31 ≤ img[k] ∧ img[k] < 2 ^ 31)) ∧
      ∀ j, (hj : j < k) → j < 65536 ∧ -2 ^ 31 ≤ img[j] ∧ img[j] < 2 ^ 31

/-- The model's reset state is what `load` builds from the empty image when `UNLOADED` is 0 everywhere:
the model's own choice of the open parameter (log entry 2, DESIGN CHOICE). -/
def Obligations.ResetIsLoadOfNothing : Prop :=
  load (fun _ => 0) [] = .next State.reset

/-! ### One step -/

/-- R103: a step is the tick, with every stage's assignment and override in the order of its
pseudocode. -/
def Obligations.StepIsTheTick : Prop :=
  ∀ s : State, step s = .next (tick s)

/-- R100, R103, R117: when the word in EXMEM decodes to `i`, a tick that passes the halt check is
`exec i`. Nothing is added around it (log entry 1). -/
def Obligations.StepRunsDecodedInstruction : Prop :=
  ∀ (s : State) (i : Instr), RunsTick s → decode s.exmem.instr = .ok i → step s = exec i s

/-- R104, R105, R112, R233: the word at `pc` is fetched by this tick, and, if no stall holds it back
and no branch discards it, it is the word the fourth tick runs. -/
def Obligations.FetchedWordReachesExec : Prop :=
  ∀ (s0 s1 s2 s3 : State) (i : Instr), Ticks s0 s1 → Ticks s1 s2 → Ticks s2 s3 →
    branchTaken s0 = false → branchTaken s1 = false → branchTaken s2 = false →
    hazard s0.ifid.instr s0.idex.instr = false → hazard s1.ifid.instr s1.idex.instr = false →
    isHalt s3.memwb.instr = false →
    decode (s0.imem.read s0.pc.toNat) = .ok i →
    s3.exmem.instr = encode i ∧ step s3 = exec i s3

/-- R101: the halt check. -/
def Obligations.HaltCheckStopsCore : Prop :=
  ∀ (s : State) (a b : Reg) (c : Half), s.status = .running →
    s.memwb.instr = encode (.halt a b c) → step s = .next { s with status := .halted }

/-- R225: a step in HALTED or FAULTED changes nothing and gives the same result again. -/
def Obligations.TerminalStatesIgnoreSteps : Prop :=
  ∀ s : State, s.status ≠ .running →
    step s = .next s ∧ ∀ t, step s = .next t → stepResult t = stepResult s

/-- R121: the tick is a total function of the snapshot. -/
def Obligations.StepAlwaysAnswers : Prop :=
  ∀ s : State, ∃ t, step s = .next t

/-- R173, R203: an Undefined word in EXMEM at the start of a running tick faults, and nothing is
committed. -/
def Obligations.UndefinedWordFaults : Prop :=
  ∀ s : State, RunsTick s → s.exmem.instr.extractLsb' 25 7 ≠ 0 →
    step s = .next
      { s with status := .faulted (.invalidInstruction s.exmem.instr s.cycles) }

/-! ### The instructions in the Memory stage -/

/-- R140: ADD completes. With the sum that Execute computed in EXMEM, a legal ADD puts it in MEMWB for
its destination; no store changes. -/
def Obligations.AddCompletes : Prop :=
  ∀ (s : State) (rs rt : Reg) (rd : Half) (target a b : Word),
    s.exmem = ⟨encode (.add rs rt rd), target, a + b, b⟩ → rd.toNat ≤ 7 → FetchOk s →
    ∃ t, exec (.add rs rt rd) s = .next t ∧
      t.memwb = ⟨encode (.add rs rt rd), a + b⟩ ∧ t.dmem = s.dmem ∧
      CommitsTick s t ∧ FrontAdvances s t

/-- R141: NOR completes. -/
def Obligations.NorCompletes : Prop :=
  ∀ (s : State) (rs rt : Reg) (rd : Half) (target a b : Word),
    s.exmem = ⟨encode (.nor rs rt rd), target, ~~~(a ||| b), b⟩ → rd.toNat ≤ 7 → FetchOk s →
    ∃ t, exec (.nor rs rt rd) s = .next t ∧
      t.memwb = ⟨encode (.nor rs rt rd), ~~~(a ||| b)⟩ ∧ t.dmem = s.dmem ∧
      CommitsTick s t ∧ FrontAdvances s t

/-- R140, R141, R203: an ADD or NOR with field2 above 7 raises `InvalidInstruction` with its word and
`cycles`, and nothing is committed. -/
def Obligations.IllegalDestinationFaults : Prop :=
  ∀ (s : State) (rs rt : Reg) (rd : Half), 7 < rd.toNat →
    exec (.add rs rt rd) s = .next
      { s with status := .faulted (.invalidInstruction (encode (.add rs rt rd)) s.cycles) } ∧
    exec (.nor rs rt rd) s = .next
      { s with status := .faulted (.invalidInstruction (encode (.nor rs rt rd)) s.cycles) }

/-- R150: LW completes. With base `a`, the word of the data store at `a + offset` goes to MEMWB; no
store changes. -/
def Obligations.LwCompletes : Prop :=
  ∀ (s : State) (rs rt : Reg) (off : Half) (target a b : Word),
    s.exmem = ⟨encode (.lw rs rt off), target, a + sext16 off, b⟩ →
    DataAddressOk (a + sext16 off) → FetchOk s →
    ∃ t, exec (.lw rs rt off) s = .next t ∧
      t.memwb = ⟨encode (.lw rs rt off), s.dmem.read (a + sext16 off).toNat⟩ ∧
      t.dmem = s.dmem ∧ CommitsTick s t ∧ FrontAdvances s t

/-- R151: SW completes. With base `a` and stored value `b`, the data store holds `b` at `a + offset`
and its old word at every other address. -/
def Obligations.SwCompletes : Prop :=
  ∀ (s : State) (rs rt : Reg) (off : Half) (target a b : Word),
    s.exmem = ⟨encode (.sw rs rt off), target, a + sext16 off, b⟩ →
    s.dmem.wf Config.dmemWords = true →
    DataAddressOk (a + sext16 off) → FetchOk s →
    ∃ t, exec (.sw rs rt off) s = .next t ∧
      t.memwb = ⟨encode (.sw rs rt off), 0⟩ ∧
      t.dmem.wf Config.dmemWords = true ∧
      (∀ x : Nat, t.dmem.read x =
        if x = (a + sext16 off).toNat then b else s.dmem.read x) ∧
      CommitsTick s t ∧ FrontAdvances s t

/-- R204: a LW or SW whose effective address is outside 0..65535 raises `InvalidAddress(data)` with the
address, its word and `cycles`, and nothing is committed. -/
def Obligations.DataAddressFaults : Prop :=
  ∀ (s : State) (rs rt : Reg) (off : Half), ¬ DataAddressOk s.exmem.aluResult →
    exec (.lw rs rt off) s = .next
      { s with
        status := .faulted
          (.invalidAddressData s.exmem.aluResult (encode (.lw rs rt off)) s.cycles) } ∧
    exec (.sw rs rt off) s = .next
      { s with
        status := .faulted
          (.invalidAddressData s.exmem.aluResult (encode (.sw rs rt off)) s.cycles) }

/-- R160: BEQ of different operand values completes: the front end goes on, no register or store is
written for it. -/
def Obligations.BeqNotTakenCompletes : Prop :=
  ∀ (s : State) (rs rt : Reg) (off : Half) (pcPlus1 a b : Word),
    s.exmem = ⟨encode (.beq rs rt off), sext16 off + pcPlus1, a - b, b⟩ → a ≠ b → FetchOk s →
    ∃ t, exec (.beq rs rt off) s = .next t ∧
      t.memwb = ⟨encode (.beq rs rt off), 0⟩ ∧ t.dmem = s.dmem ∧
      CommitsTick s t ∧ FrontAdvances s t

/-- R160, R115, R116: BEQ of equal operand values completes, whatever `pc` is and whether or not a
load-use hazard holds: IFID, IDEX and EXMEM are flushed and `pc` is the address after the BEQ plus
the offset. -/
def Obligations.BeqTakenCompletes : Prop :=
  ∀ (s : State) (rs rt : Reg) (off : Half) (pcPlus1 a b : Word),
    s.exmem = ⟨encode (.beq rs rt off), sext16 off + pcPlus1, a - b, b⟩ → a = b →
    ∃ t, exec (.beq rs rt off) s = .next t ∧ t.pc = pcPlus1 + sext16 off ∧
      t.memwb = ⟨encode (.beq rs rt off), 0⟩ ∧ t.dmem = s.dmem ∧
      CommitsTick s t ∧ FrontFlushed s t

/-- R170, R171, R172: JALR, HALT and NOOP complete with every field value: the word goes to MEMWB, with
no effect on any store, and the front end goes on. -/
def Obligations.EffectFreeInstructionsComplete : Prop :=
  ∀ (s : State) (x y : Reg) (z : Half), FetchOk s →
    (∃ t, exec (.jalr x y z) s = .next t ∧ t.memwb = ⟨encode (.jalr x y z), 0⟩ ∧
      t.dmem = s.dmem ∧ CommitsTick s t ∧ FrontAdvances s t) ∧
    (∃ t, exec (.halt x y z) s = .next t ∧ t.memwb = ⟨encode (.halt x y z), 0⟩ ∧
      t.dmem = s.dmem ∧ CommitsTick s t ∧ FrontAdvances s t) ∧
    (∃ t, exec (.noop x y z) s = .next t ∧ t.memwb = ⟨encode (.noop x y z), 0⟩ ∧
      t.dmem = s.dmem ∧ CommitsTick s t ∧ FrontAdvances s t)

/-! ### Faults -/

/-- R206: a fault aborts its tick: nothing but the status changes, and FAULTED is terminal. -/
def Obligations.FaultCommitsNothing : Prop :=
  ∀ (s t : State) (f : Fault), s.status = .running → step s = .next t →
    t.status = .faulted f → t = { s with status := .faulted f } ∧ step t = .next t

/-- R207 with R203, R204, R205: which fault a tick raises, in order: none if it halts; then the Memory
stage's, `InvalidInstruction` and `InvalidAddress(data)` never both applying; then
`InvalidAddress(fetch)`, only if the Memory stage raised nothing; otherwise none. -/
def Obligations.FaultPriority : Prop :=
  ∀ s t : State, s.status = .running → step s = .next t →
    (isHalt s.memwb.instr = true → t.status = .halted) ∧
    (isHalt s.memwb.instr = false → legalWord s.exmem.instr = false →
      t.status = .faulted (.invalidInstruction s.exmem.instr s.cycles)) ∧
    (∀ x y z, s.exmem.instr = encode (.lw x y z) ∨ s.exmem.instr = encode (.sw x y z) →
      legalWord s.exmem.instr = true ∧
      (isHalt s.memwb.instr = false → ¬ DataAddressOk s.exmem.aluResult →
        t.status =
          .faulted (.invalidAddressData s.exmem.aluResult s.exmem.instr s.cycles))) ∧
    (isHalt s.memwb.instr = false → legalWord s.exmem.instr = true →
      (∀ x y z, s.exmem.instr = encode (.lw x y z) ∨ s.exmem.instr = encode (.sw x y z) →
        DataAddressOk s.exmem.aluResult) →
      t.status =
        if branchTaken s = false ∧ hazard s.ifid.instr s.idex.instr = false ∧
            65536 ≤ s.pc.toNat then
          .faulted (.invalidAddressFetch s.pc s.cycles)
        else .running)

/-- R201 (D20): the code of each fault kind. -/
def Obligations.FaultCodes : Prop :=
  (∀ n, (Fault.loadError n).code = 1) ∧
  (∀ w c, (Fault.invalidInstruction w c).code = 2) ∧
  (∀ a w c, (Fault.invalidAddressData a w c).code = 3) ∧
  (∀ p c, (Fault.invalidAddressFetch p c).code = 4)

/-! ### The stages of a tick -/

/-- R113: the ALU result of the instruction in Execute, by opcode, 0 for an Undefined word; `a` and `b`
are the operands of R111. It holds in every tick that commits with no taken branch. -/
def Obligations.AluTable : Prop :=
  ∀ s t : State, Ticks s t → branchTaken s = false →
    (∀ x y z, s.idex.instr = encode (.add x y z) →
      t.exmem.aluResult = forward s x s.idex.readRegA + forward s y s.idex.readRegB) ∧
    (∀ x y z, s.idex.instr = encode (.nor x y z) →
      t.exmem.aluResult = ~~~(forward s x s.idex.readRegA ||| forward s y s.idex.readRegB)) ∧
    (∀ x y z, s.idex.instr = encode (.lw x y z) →
      t.exmem.aluResult = forward s x s.idex.readRegA + s.idex.offset) ∧
    (∀ x y z, s.idex.instr = encode (.sw x y z) →
      t.exmem.aluResult = forward s x s.idex.readRegA + s.idex.offset ∧
      t.exmem.readRegB = forward s y s.idex.readRegB) ∧
    (∀ x y z, s.idex.instr = encode (.beq x y z) →
      t.exmem.aluResult = forward s x s.idex.readRegA - forward s y s.idex.readRegB) ∧
    (∀ x y z, s.idex.instr = encode (.jalr x y z) ∨ s.idex.instr = encode (.halt x y z) ∨
        s.idex.instr = encode (.noop x y z) → t.exmem.aluResult = 0) ∧
    (s.idex.instr.extractLsb' 25 7 ≠ 0 → t.exmem.aluResult = 0)

/-- R109, R110: a forwarded operand is the result of the nearest producer, EXMEM before MEMWB before
WBEND, and the register value read in Decode where there is none; a LW in EXMEM forwards nothing. -/
def Obligations.NearestProducerForwards : Prop :=
  ∀ (s : State) (r : Reg) (v0 : Word),
    (AluWrites s.exmem.instr r → forward s r v0 = s.exmem.aluResult) ∧
    (¬ AluWrites s.exmem.instr r → WritesReg s.memwb.instr r →
      forward s r v0 = s.memwb.writeData) ∧
    (¬ AluWrites s.exmem.instr r → ¬ WritesReg s.memwb.instr r → WritesReg s.wbend.instr r →
      forward s r v0 = s.wbend.writeData) ∧
    (¬ AluWrites s.exmem.instr r → ¬ WritesReg s.memwb.instr r → ¬ WritesReg s.wbend.instr r →
      forward s r v0 = v0)

/-- R106, R107: the stall condition holds exactly when IDEX is a LW whose field1 the word in IFID
reads. -/
def Obligations.HazardExactly : Prop :=
  ∀ i d : Word, hazard i d = true ↔
    ∃ a r c, d = encode (.lw a r c) ∧ ReadsReg i r

/-- R108: a stall holds `pc` and IFID and puts a bubble in IDEX, the LW advances to EXMEM, and the next
tick does not stall. -/
def Obligations.StallLastsOneTick : Prop :=
  ∀ s t : State, Ticks s t → branchTaken s = false →
    hazard s.ifid.instr s.idex.instr = true →
    t.pc = s.pc ∧ t.ifid = s.ifid ∧ t.idex = ⟨0x01C00000, 0, 0, 0, 0⟩ ∧
    t.exmem.instr = s.idex.instr ∧ hazard t.ifid.instr t.idex.instr = false

/-- R118: Writeback writes the write data of MEMWB to field2 of an ADD or NOR and field1 of a LW, leaves
every other register alone, and copies MEMWB to WBEND. -/
def Obligations.WritebackWritesDestination : Prop :=
  ∀ s t : State, Ticks s t →
    (∀ r, WritesReg s.memwb.instr r → readReg t.reg r = s.memwb.writeData) ∧
    (∀ r, ¬ WritesReg s.memwb.instr r → readReg t.reg r = readReg s.reg r) ∧
    t.wbend = ⟨s.memwb.instr, s.memwb.writeData⟩

/-- R119: a tick that passes the halt check and raises no fault adds exactly 1 to `cycles`; a halting
and a faulting tick leave it unchanged. -/
def Obligations.CyclesCountTicks : Prop :=
  ∀ s t : State, s.status = .running → step s = .next t →
    (t.status = .running → t.cycles = s.cycles + 1) ∧
    (t.status ≠ .running → t.cycles = s.cycles)

/-- R24, R54, R229: no run changes the instruction store, so a store is never seen by a fetch. -/
def Obligations.InstructionStoreNeverChanges : Prop :=
  ∀ (n : Nat) (s t : State), core.run n s = .next t → t.imem = s.imem

/-- R25, R42: a step changes the data store only where a SW is in the Memory stage, and then only at
its effective address. -/
def Obligations.OnlySwChangesDataStore : Prop :=
  ∀ s t : State, s.dmem.wf Config.dmemWords = true → step s = .next t →
    ∀ x : Nat, t.dmem.read x ≠ s.dmem.read x →
      (∃ a b c, s.exmem.instr = encode (.sw a b c)) ∧ x = s.exmem.aluResult.toNat ∧
        t.dmem.read x = s.exmem.readRegB

/-! ### Instructions across ticks -/

/-- R140, R141, R233: an ADD or NOR in Execute has its result in its destination register three ticks
later. -/
def Obligations.AluResultReachesRegister : Prop :=
  ∀ (s0 s1 s2 s3 : State) (rs rt : Reg) (rd : Half) (r : Reg), Ticks s0 s1 → Ticks s1 s2 →
    Ticks s2 s3 → branchTaken s0 = false → rd.toNat = r.toNat →
    (s0.idex.instr = encode (.add rs rt rd) →
      readReg s3.reg r = operandA s0 + operandB s0) ∧
    (s0.idex.instr = encode (.nor rs rt rd) →
      readReg s3.reg r = ~~~(operandA s0 ||| operandB s0))

/-- R150, R233: a LW in Execute has the word of the data store at its effective address, as the store
stands when it is in the Memory stage, in its destination register three ticks later. -/
def Obligations.LoadedWordReachesRegister : Prop :=
  ∀ (s0 s1 s2 s3 : State) (rs rt : Reg) (off : Half), Ticks s0 s1 → Ticks s1 s2 →
    Ticks s2 s3 → branchTaken s0 = false → s0.idex.instr = encode (.lw rs rt off) →
    readReg s3.reg rt = s1.dmem.read (operandA s0 + s0.idex.offset).toNat

/-- R151, R228: a SW in Execute has its value in the data store two ticks later, and a LW of the same
address directly behind it reads that value. -/
def Obligations.StoredWordIsLoadedNext : Prop :=
  ∀ (s0 s1 s2 s3 : State) (rs rt rs' rt' : Reg) (off off' : Half), Ticks s0 s1 → Ticks s1 s2 →
    Ticks s2 s3 → branchTaken s0 = false → s1.dmem.wf Config.dmemWords = true →
    s0.idex.instr = encode (.sw rs rt off) →
    s2.dmem.read (operandA s0 + s0.idex.offset).toNat = operandB s0 ∧
    (s1.idex.instr = encode (.lw rs' rt' off') →
      operandA s1 + s1.idex.offset = operandA s0 + s0.idex.offset →
      s3.memwb.writeData = operandB s0)

/-- R160, R231: two ticks after a BEQ of equal operands is in Execute, `pc` is its target and the three
younger instructions are gone; the next tick fetches the target. -/
def Obligations.TakenBranchFetchesTarget : Prop :=
  ∀ (s0 s1 s2 s3 : State) (rs rt : Reg) (off : Half), Ticks s0 s1 → Ticks s1 s2 →
    Ticks s2 s3 → branchTaken s0 = false → s0.idex.instr = encode (.beq rs rt off) →
    operandA s0 = operandB s0 →
    FrontFlushed s1 s2 ∧ s2.pc = s0.idex.pcPlus1 + s0.idex.offset ∧
    s3.ifid = ⟨s0.imem.read (s0.idex.pcPlus1 + s0.idex.offset).toNat,
      s0.idex.pcPlus1 + s0.idex.offset + 1⟩

/-- R230: a LW directly followed by a consumer of its destination stalls once, and the consumer then
gets the loaded word in Execute. -/
def Obligations.LoadUseDeliversLoadedWord : Prop :=
  ∀ (s0 s1 s2 : State) (a r : Reg) (c : Half), Ticks s0 s1 → Ticks s1 s2 →
    branchTaken s0 = false → s0.idex.instr = encode (.lw a r c) → ReadsReg s0.ifid.instr r →
    s1.pc = s0.pc ∧ s2.idex.instr = s0.ifid.instr ∧
    (f0 s0.ifid.instr = r → operandA s2 = s1.dmem.read s1.exmem.aluResult.toNat) ∧
    (f1 s0.ifid.instr = r → operandB s2 = s1.dmem.read s1.exmem.aluResult.toNat)

/-- R171, R236: when a HALT is in the Memory stage of a tick that commits, that tick changes no store,
the next step halts the core with everything else as it is, whatever words stand behind the HALT, and
no later step changes anything. -/
def Obligations.NothingAfterHaltCommits : Prop :=
  ∀ (s t : State) (a b : Reg) (c : Half), Ticks s t → s.exmem.instr = encode (.halt a b c) →
    t.dmem = s.dmem ∧ ∀ n, core.run (n + 1) t = .next { t with status := .halted }

/-- R223 (D24): what `step()` reports: `cycles` after the tick, whether the status is HALTED, and in
FAULTED the fault; `snapshot()` is the state itself. -/
def Obligations.StepResultReports : Prop :=
  ∀ s : State, (stepResult s).cyclesSoFar = s.cycles ∧
    ((stepResult s).halted = true ↔ s.status = .halted) ∧
    (∀ f, (stepResult s).fault = some f ↔ s.status = .faulted f) ∧ snapshot s = s

/-! ### Invariants -/

/-- Two canonical stores with the same contents are the same data. -/
def Obligations.CanonicalStoresAreEqual : Prop :=
  ∀ (size : Nat) (m n : Store), m.wf size = true → n.wf size = true →
    (∀ a, a < size → m.read a = n.read a) → m = n

/-- D19, R32, R37, R117: every step keeps the form of a reachable state: canonical stores, legal words
behind the Memory stage, the fixed don't-care fields, and address values that never overflow. -/
def Obligations.StateWfKept : Prop :=
  ∀ s t : State, StateWf s → step s = .next t → StateWf t

/-- The reset state has the form of a reachable state. -/
def Obligations.StateWfAtReset : Prop := StateWf State.reset

/-- Every loaded state has the form of a reachable state, whatever the image and `UNLOADED`. -/
def Obligations.StateWfAfterLoad : Prop :=
  ∀ (unloaded : Nat → Word) (img : List Int) (s : State), load unloaded img = .next s → StateWf s

/-- R22, R27 to R31, R107, R227: every step keeps what ties the latches to the program. -/
def Obligations.PipelineInvKept : Prop :=
  ∀ s t : State, PipelineInv s → step s = .next t → PipelineInv t

/-- Every loaded state has the pipeline invariant, whatever the image and `UNLOADED`. -/
def Obligations.PipelineInvAfterLoad : Prop :=
  ∀ (unloaded : Nat → Word) (img : List Int) (s : State),
    load unloaded img = .next s → PipelineInv s

/-- R227: forwarding is complete. An instruction in Execute receives, for each register it reads, the
value the program has there: the result of the nearest older instruction that writes it. -/
def Obligations.OperandsAreProgramValues : Prop :=
  ∀ s : State, PipelineInv s →
    (f0 s.idex.instr ∈ sourcesOf s.idex.instr →
      operandA s = programReg s (f0 s.idex.instr)) ∧
    (f1 s.idex.instr ∈ sourcesOf s.idex.instr →
      operandB s = programReg s (f1 s.idex.instr))

/-- R226: one tick of the pipeline is one instruction of the unpipelined machine, or none where EXMEM
holds a bubble or the core halts. The correspondence is the model's reading (log entry 12, DEDUCED). -/
def Obligations.TickRefinesSequentialMachine : Prop :=
  ∀ s t : State, PipelineInv s → s.status = .running → step s = .next t →
    (∀ f, t.status ≠ .faulted f) →
    if exmemLive s ∧ isHalt s.memwb.instr = false then
      seqStep s.imem (seqOf s) = some (seqOf t)
    else seqOf t = seqOf s

/-- R226: the results of a program that halts on the core, the register file and the data store, equal
those of executing its instructions one at a time in program order up to its HALT. The sequential
machine is the model's reading (log entry 12, DEDUCED). -/
def Obligations.HaltedRunMatchesSequentialMachine : Prop :=
  ∀ (unloaded : Nat → Word) (img : List Int) (s t : State) (n : Nat),
    load unloaded img = .next s → core.run n s = .next t → t.status = .halted →
    ∃ k q, seqRun s.imem k (seqOf s) = some q ∧ q.halted = true ∧
      q.reg = t.reg ∧ q.dmem = t.dmem

/-- R232: the cycle law. A run from a loaded image that ends in HALTED ends with
`cycles = C + 4 + S + 3*T`. The spec marks the law as its own inference; how the counts are taken is
log entry 12 (DEDUCED). -/
def Obligations.CycleLaw : Prop :=
  ∀ (unloaded : Nat → Word) (img : List Int) (s t : State) (n : Nat) (c : Tally),
    load unloaded img = .next s → runTally n (s, ⟨0, 0, 0⟩) = (t, c) → t.status = .halted →
    t.cycles = c.written + 4 + c.stalls + 3 * c.taken

/-- R232: the step lemma of the cycle law. Every step keeps `cycles` equal to what the counts give for
the words and bubbles that have left EXMEM: with no HALT in MEMWB, `cycles` plus the bubbles still in
IFID, IDEX and EXMEM is `C + 3 + S + 3*T`; with a HALT there, `cycles` is `C + 4 + S + 3*T`. How the
counts are taken is log entry 12 (DEDUCED). -/
def Obligations.CountsAccountForCyclesKept : Prop :=
  ∀ (s t : State) (c : Tally), PipelineInv s → CountsAccountForCycles s c → step s = .next t →
    CountsAccountForCycles t (c.add s t)

/-- The counts start right: a loaded state has three bubbles in flight and nothing counted. -/
def Obligations.CountsAccountForCyclesAfterLoad : Prop :=
  ∀ (unloaded : Nat → Word) (img : List Int) (s : State), load unloaded img = .next s →
    CountsAccountForCycles s ⟨0, 0, 0⟩
end

