-- ==== Sys2Proof/Laws/Codec.lean ====
section
/-! SUPPORT. The fields of an encoded word (30_encoding.md R61, R69), and the opcode field read as the
opcode value. -/

namespace Sys2Proof

@[simp] theorem f2_enc (op : BitVec 10) (a b : Reg) (c : Half) : f2 (enc op a b c) = c := by
  apply BitVec.eq_of_getLsbD_eq
  intro i hi
  simp only [f2, enc, BitVec.getLsbD_extractLsb', BitVec.getLsbD_append]
  simp [hi]

@[simp] theorem f1_enc (op : BitVec 10) (a b : Reg) (c : Half) : f1 (enc op a b c) = b := by
  apply BitVec.eq_of_getLsbD_eq
  intro i hi
  simp only [f1, enc, BitVec.getLsbD_extractLsb', BitVec.getLsbD_append]
  simp [hi]

@[simp] theorem f0_enc (op : BitVec 10) (a b : Reg) (c : Half) : f0 (enc op a b c) = a := by
  apply BitVec.eq_of_getLsbD_eq
  intro i hi
  simp only [f0, enc, BitVec.getLsbD_extractLsb', BitVec.getLsbD_append]
  simp [hi, show ¬ (19 + i < 16) by omega, show ¬ (19 + i - 16 < 3) by omega,
    show 19 + i - 16 - 3 = i by omega]

@[simp] theorem opcodeField_enc (op : BitVec 10) (a b : Reg) (c : Half) :
    opcodeField (enc op a b c) = op := by
  apply BitVec.eq_of_getLsbD_eq
  intro i hi
  simp only [opcodeField, enc, BitVec.getLsbD_extractLsb', BitVec.getLsbD_append]
  simp [hi, show ¬ (22 + i < 16) by omega, show ¬ (22 + i - 16 < 3) by omega,
    show ¬ (22 + i - 16 - 3 < 3) by omega, show 22 + i - 16 - 3 - 3 = i by omega]

/-- The four fields of a word make the word up: no bit of it lies in none of them. -/
theorem enc_fields (w : Word) : enc (opcodeField w) (f0 w) (f1 w) (f2 w) = w := by
  apply BitVec.eq_of_getLsbD_eq
  intro i hi
  simp only [opcodeField, f0, f1, f2, enc, BitVec.getLsbD_extractLsb', BitVec.getLsbD_append]
  by_cases h0 : i < 16
  · simp [h0]
  · by_cases h1 : i - 16 < 3
    · simp [h0, h1, show 16 + (i - 16) = i by omega]
    · by_cases h2 : i - 16 - 3 < 3
      · simp [h0, h1, h2, show 19 + (i - 16 - 3) = i by omega]
      · simp [h0, h1, h2, show i - 16 - 3 - 3 < 10 by omega,
          show 22 + (i - 16 - 3 - 3) = i by omega]

/-- The codec's raw opcode is the signed reading of bits 31:22 (R61, R62). -/
theorem opcodeRaw_eq_toInt (w : Word) : opcodeRaw w = (opcodeField w).toInt := by
  have h : (opcodeField w).toNat = w.toNat / 2 ^ 22 := by
    simp only [opcodeField, BitVec.extractLsb'_toNat, Nat.shiftRight_eq_div_pow]
    have := w.isLt
    omega
  rw [opcodeRaw, Int.shiftRight_eq_div_pow]
  simp only [s32, BitVec.toInt, h]
  have := w.isLt
  split <;> split <;> omega

/-- What the decoder answers, said once: the word of the instruction it names, or a raw opcode outside
0..7. -/
theorem decode_cases (w : Word) :
    (∃ i, decode w = .ok i ∧ encode i = w) ∨
      (8 ≤ (opcodeField w).toNat ∧ decode w = .error (.undefinedOpcode (opcodeRaw w))) := by
  have hw := enc_fields w
  have hop : ∀ n : Nat, (opcodeField w).toNat = n → opcodeField w = BitVec.ofNat 10 n :=
    fun n h => by rw [← h, BitVec.ofNat_toNat, BitVec.setWidth_eq]
  unfold decode
  split
  case h_9 h0 h1 h2 h3 h4 h5 h6 h7 =>
    refine .inr ⟨?_, rfl⟩
    by_contra hlt
    have hlt : (opcodeField w).toNat < 8 := by omega
    generalize (opcodeField w).toNat = n at *
    interval_cases n <;> contradiction
  all_goals
    rename_i h
    left
    refine ⟨_, rfl, ?_⟩
    have h' := hop _ h
    rw [h'] at hw
    exact hw

end Sys2Proof

namespace Sys2Proof.Machine

/-- A number names a register exactly when its 16 bits are the register's, zero-extended (D22). -/
theorem namesReg_some (d : Half) (r : Reg) : namesReg (some d) r = true ↔ d.toNat = r.toNat := by
  simp only [namesReg, beq_iff_eq, Option.some.injEq]
  have := r.isLt
  constructor
  · rintro rfl; simp; omega
  · intro h; apply BitVec.eq_of_toNat_eq; simp; omega

@[simp] theorem namesReg_none (r : Reg) : namesReg none r = false := rfl

@[simp] theorem namesReg_zeroExtend (q r : Reg) :
    namesReg (some (q.zeroExtend 16)) r = decide (q = r) := by
  rw [Bool.eq_iff_iff, namesReg_some, decide_eq_true_eq, ← BitVec.toNat_inj]
  have := q.isLt
  simp only [BitVec.truncate_eq_setWidth, BitVec.toNat_setWidth]
  omega

end Sys2Proof.Machine
end

