-- ==== Sys2Proof/Laws/PerInstr.lean ====
section
/-! SUPPORT. Per-instruction families: a statement about an instruction as syntax, and one lemma per
constructor. -/

namespace Sys2Proof.Laws.EncodedFields

/-- The opcode value of R60 and the three fields an instruction's word carries (R60, R63, R69). -/
def Statement : Instr → Prop
  | .add rs rt rd => opcodeField (encode (.add rs rt rd)) = 0 ∧ f0 (encode (.add rs rt rd)) = rs ∧
      f1 (encode (.add rs rt rd)) = rt ∧ f2 (encode (.add rs rt rd)) = rd
  | .nor rs rt rd => opcodeField (encode (.nor rs rt rd)) = 1 ∧ f0 (encode (.nor rs rt rd)) = rs ∧
      f1 (encode (.nor rs rt rd)) = rt ∧ f2 (encode (.nor rs rt rd)) = rd
  | .lw rs rt off => opcodeField (encode (.lw rs rt off)) = 2 ∧ f0 (encode (.lw rs rt off)) = rs ∧
      f1 (encode (.lw rs rt off)) = rt ∧ f2 (encode (.lw rs rt off)) = off
  | .sw rs rt off => opcodeField (encode (.sw rs rt off)) = 3 ∧ f0 (encode (.sw rs rt off)) = rs ∧
      f1 (encode (.sw rs rt off)) = rt ∧ f2 (encode (.sw rs rt off)) = off
  | .beq rs rt off => opcodeField (encode (.beq rs rt off)) = 4 ∧ f0 (encode (.beq rs rt off)) = rs ∧
      f1 (encode (.beq rs rt off)) = rt ∧ f2 (encode (.beq rs rt off)) = off
  | .jalr a b c => opcodeField (encode (.jalr a b c)) = 5 ∧ f0 (encode (.jalr a b c)) = a ∧
      f1 (encode (.jalr a b c)) = b ∧ f2 (encode (.jalr a b c)) = c
  | .halt a b c => opcodeField (encode (.halt a b c)) = 6 ∧ f0 (encode (.halt a b c)) = a ∧
      f1 (encode (.halt a b c)) = b ∧ f2 (encode (.halt a b c)) = c
  | .noop a b c => opcodeField (encode (.noop a b c)) = 7 ∧ f0 (encode (.noop a b c)) = a ∧
      f1 (encode (.noop a b c)) = b ∧ f2 (encode (.noop a b c)) = c

theorem add (rs rt : Reg) (rd : Half) : Statement (.add rs rt rd) :=
  ⟨opcodeField_enc .., f0_enc .., f1_enc .., f2_enc ..⟩
theorem nor (rs rt : Reg) (rd : Half) : Statement (.nor rs rt rd) :=
  ⟨opcodeField_enc .., f0_enc .., f1_enc .., f2_enc ..⟩
theorem lw (rs rt : Reg) (off : Half) : Statement (.lw rs rt off) :=
  ⟨opcodeField_enc .., f0_enc .., f1_enc .., f2_enc ..⟩
theorem sw (rs rt : Reg) (off : Half) : Statement (.sw rs rt off) :=
  ⟨opcodeField_enc .., f0_enc .., f1_enc .., f2_enc ..⟩
theorem beq (rs rt : Reg) (off : Half) : Statement (.beq rs rt off) :=
  ⟨opcodeField_enc .., f0_enc .., f1_enc .., f2_enc ..⟩
theorem jalr (a b : Reg) (c : Half) : Statement (.jalr a b c) :=
  ⟨opcodeField_enc .., f0_enc .., f1_enc .., f2_enc ..⟩
theorem halt (a b : Reg) (c : Half) : Statement (.halt a b c) :=
  ⟨opcodeField_enc .., f0_enc .., f1_enc .., f2_enc ..⟩
theorem noop (a b : Reg) (c : Half) : Statement (.noop a b c) :=
  ⟨opcodeField_enc .., f0_enc .., f1_enc .., f2_enc ..⟩

end Sys2Proof.Laws.EncodedFields
end

