-- ==== Sys2Proof/Laws/State.lean ====
section
/-! SUPPORT. One lemma per field for each named update of the state, so that no proof unfolds a record
update. -/

namespace Sys2Proof.Machine

@[simp] theorem raiseFault_pc (s : State) (f : Fault) : (raiseFault s f).pc = s.pc := rfl
@[simp] theorem raiseFault_imem (s : State) (f : Fault) : (raiseFault s f).imem = s.imem := rfl
@[simp] theorem raiseFault_dmem (s : State) (f : Fault) : (raiseFault s f).dmem = s.dmem := rfl
@[simp] theorem raiseFault_reg (s : State) (f : Fault) : (raiseFault s f).reg = s.reg := rfl
@[simp] theorem raiseFault_cycles (s : State) (f : Fault) : (raiseFault s f).cycles = s.cycles := rfl
@[simp] theorem raiseFault_ifid (s : State) (f : Fault) : (raiseFault s f).ifid = s.ifid := rfl
@[simp] theorem raiseFault_idex (s : State) (f : Fault) : (raiseFault s f).idex = s.idex := rfl
@[simp] theorem raiseFault_exmem (s : State) (f : Fault) : (raiseFault s f).exmem = s.exmem := rfl
@[simp] theorem raiseFault_memwb (s : State) (f : Fault) : (raiseFault s f).memwb = s.memwb := rfl
@[simp] theorem raiseFault_wbend (s : State) (f : Fault) : (raiseFault s f).wbend = s.wbend := rfl
@[simp] theorem raiseFault_status (s : State) (f : Fault) : (raiseFault s f).status = .faulted f := rfl

@[simp] theorem enterHalted_pc (s : State) : (enterHalted s).pc = s.pc := rfl
@[simp] theorem enterHalted_imem (s : State) : (enterHalted s).imem = s.imem := rfl
@[simp] theorem enterHalted_dmem (s : State) : (enterHalted s).dmem = s.dmem := rfl
@[simp] theorem enterHalted_reg (s : State) : (enterHalted s).reg = s.reg := rfl
@[simp] theorem enterHalted_cycles (s : State) : (enterHalted s).cycles = s.cycles := rfl
@[simp] theorem enterHalted_ifid (s : State) : (enterHalted s).ifid = s.ifid := rfl
@[simp] theorem enterHalted_idex (s : State) : (enterHalted s).idex = s.idex := rfl
@[simp] theorem enterHalted_exmem (s : State) : (enterHalted s).exmem = s.exmem := rfl
@[simp] theorem enterHalted_memwb (s : State) : (enterHalted s).memwb = s.memwb := rfl
@[simp] theorem enterHalted_wbend (s : State) : (enterHalted s).wbend = s.wbend := rfl
@[simp] theorem enterHalted_status (s : State) : (enterHalted s).status = .halted := rfl

@[simp] theorem backEnd_pc (s : State) (k v : Word) (m : Store) : (backEnd s k v m).pc = s.pc := rfl
@[simp] theorem backEnd_imem (s : State) (k v : Word) (m : Store) : (backEnd s k v m).imem = s.imem := rfl
@[simp] theorem backEnd_dmem (s : State) (k v : Word) (m : Store) : (backEnd s k v m).dmem = m := rfl
@[simp] theorem backEnd_reg (s : State) (k v : Word) (m : Store) : (backEnd s k v m).reg = writebackRegs s := rfl
@[simp] theorem backEnd_cycles (s : State) (k v : Word) (m : Store) : (backEnd s k v m).cycles = s.cycles + 1 := rfl
@[simp] theorem backEnd_ifid (s : State) (k v : Word) (m : Store) : (backEnd s k v m).ifid = s.ifid := rfl
@[simp] theorem backEnd_idex (s : State) (k v : Word) (m : Store) : (backEnd s k v m).idex = s.idex := rfl
@[simp] theorem backEnd_exmem (s : State) (k v : Word) (m : Store) : (backEnd s k v m).exmem = s.exmem := rfl
@[simp] theorem backEnd_memwb (s : State) (k v : Word) (m : Store) : (backEnd s k v m).memwb = ⟨k, v⟩ := rfl
@[simp] theorem backEnd_wbend (s : State) (k v : Word) (m : Store) : (backEnd s k v m).wbend = writebackLatch s := rfl
@[simp] theorem backEnd_status (s : State) (k v : Word) (m : Store) : (backEnd s k v m).status = s.status := rfl

@[simp] theorem flushFront_pc (s n : State) : (flushFront s n).pc = s.exmem.branchTarget := rfl
@[simp] theorem flushFront_imem (s n : State) : (flushFront s n).imem = n.imem := rfl
@[simp] theorem flushFront_dmem (s n : State) : (flushFront s n).dmem = n.dmem := rfl
@[simp] theorem flushFront_reg (s n : State) : (flushFront s n).reg = n.reg := rfl
@[simp] theorem flushFront_cycles (s n : State) : (flushFront s n).cycles = n.cycles := rfl
@[simp] theorem flushFront_ifid (s n : State) : (flushFront s n).ifid = IFID.bubble := rfl
@[simp] theorem flushFront_idex (s n : State) : (flushFront s n).idex = IDEX.bubble := rfl
@[simp] theorem flushFront_exmem (s n : State) : (flushFront s n).exmem = EXMEM.bubble := rfl
@[simp] theorem flushFront_memwb (s n : State) : (flushFront s n).memwb = n.memwb := rfl
@[simp] theorem flushFront_wbend (s n : State) : (flushFront s n).wbend = n.wbend := rfl
@[simp] theorem flushFront_status (s n : State) : (flushFront s n).status = n.status := rfl

@[simp] theorem stallFront_pc (s n : State) : (stallFront s n).pc = s.pc := rfl
@[simp] theorem stallFront_imem (s n : State) : (stallFront s n).imem = n.imem := rfl
@[simp] theorem stallFront_dmem (s n : State) : (stallFront s n).dmem = n.dmem := rfl
@[simp] theorem stallFront_reg (s n : State) : (stallFront s n).reg = n.reg := rfl
@[simp] theorem stallFront_cycles (s n : State) : (stallFront s n).cycles = n.cycles := rfl
@[simp] theorem stallFront_ifid (s n : State) : (stallFront s n).ifid = s.ifid := rfl
@[simp] theorem stallFront_idex (s n : State) : (stallFront s n).idex = IDEX.bubble := rfl
@[simp] theorem stallFront_exmem (s n : State) : (stallFront s n).exmem = executeLatch s := rfl
@[simp] theorem stallFront_memwb (s n : State) : (stallFront s n).memwb = n.memwb := rfl
@[simp] theorem stallFront_wbend (s n : State) : (stallFront s n).wbend = n.wbend := rfl
@[simp] theorem stallFront_status (s n : State) : (stallFront s n).status = n.status := rfl

@[simp] theorem advanceFront_pc (s n : State) (w : Word) : (advanceFront s n w).pc = s.pc + 1 := rfl
@[simp] theorem advanceFront_imem (s n : State) (w : Word) : (advanceFront s n w).imem = n.imem := rfl
@[simp] theorem advanceFront_dmem (s n : State) (w : Word) : (advanceFront s n w).dmem = n.dmem := rfl
@[simp] theorem advanceFront_reg (s n : State) (w : Word) : (advanceFront s n w).reg = n.reg := rfl
@[simp] theorem advanceFront_cycles (s n : State) (w : Word) : (advanceFront s n w).cycles = n.cycles := rfl
@[simp] theorem advanceFront_ifid (s n : State) (w : Word) : (advanceFront s n w).ifid = fetchLatch s w := rfl
@[simp] theorem advanceFront_idex (s n : State) (w : Word) : (advanceFront s n w).idex = decodeLatch s := rfl
@[simp] theorem advanceFront_exmem (s n : State) (w : Word) : (advanceFront s n w).exmem = executeLatch s := rfl
@[simp] theorem advanceFront_memwb (s n : State) (w : Word) : (advanceFront s n w).memwb = n.memwb := rfl
@[simp] theorem advanceFront_wbend (s n : State) (w : Word) : (advanceFront s n w).wbend = n.wbend := rfl
@[simp] theorem advanceFront_status (s n : State) (w : Word) : (advanceFront s n w).status = n.status := rfl

@[simp] theorem withFetchWord_pc (s : State) (nbits w : Nat) :
    (s.withFetchWord nbits w).pc = s.pc := rfl
@[simp] theorem withFetchWord_imem (s : State) (nbits w : Nat) :
    (s.withFetchWord nbits w).imem = s.imem := rfl
@[simp] theorem withFetchWord_dmem (s : State) (nbits w : Nat) :
    (s.withFetchWord nbits w).dmem = s.dmem := rfl
@[simp] theorem withFetchWord_reg (s : State) (nbits w : Nat) :
    (s.withFetchWord nbits w).reg = s.reg := rfl
@[simp] theorem withFetchWord_cycles (s : State) (nbits w : Nat) :
    (s.withFetchWord nbits w).cycles = s.cycles := rfl
@[simp] theorem withFetchWord_ifid (s : State) (nbits w : Nat) :
    (s.withFetchWord nbits w).ifid = s.ifid := rfl
@[simp] theorem withFetchWord_idex (s : State) (nbits w : Nat) :
    (s.withFetchWord nbits w).idex = s.idex := rfl
@[simp] theorem withFetchWord_memwb (s : State) (nbits w : Nat) :
    (s.withFetchWord nbits w).memwb = s.memwb := rfl
@[simp] theorem withFetchWord_wbend (s : State) (nbits w : Nat) :
    (s.withFetchWord nbits w).wbend = s.wbend := rfl
@[simp] theorem withFetchWord_status (s : State) (nbits w : Nat) :
    (s.withFetchWord nbits w).status = s.status := rfl

@[simp] theorem withFetchWord_exmem_instr (s : State) (nbits w : Nat) :
    (s.withFetchWord nbits w).exmem.instr = BitVec.ofNat 32 (w % 2 ^ nbits) := rfl

@[simp] theorem loaded_status (i d : Store) : (State.loaded i d).status = .running := rfl
@[simp] theorem loaded_imem (i d : Store) : (State.loaded i d).imem = i := rfl
@[simp] theorem loaded_dmem (i d : Store) : (State.loaded i d).dmem = d := rfl

end Sys2Proof.Machine
end

