-- ==== Sys2Proof/Laws/Store.lean ====
section
/-! SUPPORT. The laws of a store: read after write, the canonical form, and the store of a list of
words. -/

namespace Sys2Proof.Machine

theorem readCells_consCell (a b : Nat) (v : Word) (rest : List (Nat × Word)) :
    readCells a (consCell b v rest) =
      if v = Config.unlistedWord then readCells a rest
      else if a = b then v else readCells a rest := by
  unfold consCell; split <;> simp [readCells]

/-- Nothing is listed below the lower bound of a canonical list. -/
theorem readCells_below {size lo a : Nat} {cs : List (Nat × Word)}
    (h : cellsWf size lo cs = true) (ha : a < lo) : readCells a cs = Config.unlistedWord := by
  induction cs generalizing lo with
  | nil => rfl
  | cons c rest ih =>
    obtain ⟨b, v⟩ := c
    simp only [cellsWf, Bool.and_eq_true, decide_eq_true_eq] at h
    simp only [readCells]
    rw [if_neg (by omega)]
    exact ih h.2 (by omega)

theorem cellsWf_mono {size lo lo' : Nat} {cs : List (Nat × Word)}
    (h : cellsWf size lo cs = true) (hle : lo' ≤ lo) : cellsWf size lo' cs = true := by
  cases cs with
  | nil => rfl
  | cons c rest =>
    obtain ⟨b, v⟩ := c
    simp only [cellsWf, Bool.and_eq_true, decide_eq_true_eq] at h ⊢
    exact ⟨⟨⟨by omega, h.1.1.2⟩, h.1.2⟩, h.2⟩

theorem consCell_wf {size lo a : Nat} {v : Word} {rest : List (Nat × Word)}
    (hlo : lo ≤ a) (ha : a < size) (h : cellsWf size (a + 1) rest = true) :
    cellsWf size lo (consCell a v rest) = true := by
  unfold consCell
  split
  · exact cellsWf_mono h (by omega)
  · simp_all [cellsWf]

theorem writeCells_wf {size lo a : Nat} {v : Word} {cs : List (Nat × Word)}
    (hlo : lo ≤ a) (ha : a < size) (h : cellsWf size lo cs = true) :
    cellsWf size lo (writeCells a v cs) = true := by
  induction cs generalizing lo with
  | nil => exact consCell_wf hlo ha rfl
  | cons c rest ih =>
    obtain ⟨b, u⟩ := c
    have hc := h
    simp only [cellsWf, Bool.and_eq_true, decide_eq_true_eq] at hc
    simp only [writeCells]
    split
    · refine consCell_wf hlo ha ?_
      simp only [cellsWf, Bool.and_eq_true, decide_eq_true_eq]
      exact ⟨⟨⟨by omega, hc.1.1.2⟩, hc.1.2⟩, hc.2⟩
    · split
      · subst_vars; exact consCell_wf hlo ha hc.2
      · simp only [cellsWf, Bool.and_eq_true, decide_eq_true_eq]
        exact ⟨⟨⟨hc.1.1.1, hc.1.1.2⟩, hc.1.2⟩, ih (by omega) hc.2⟩

theorem readCells_writeCells {size lo : Nat} {cs : List (Nat × Word)} (a b : Nat) (v : Word)
    (h : cellsWf size lo cs = true) :
    readCells b (writeCells a v cs) = if b = a then v else readCells b cs := by
  induction cs generalizing lo with
  | nil => simp only [writeCells, readCells_consCell, readCells]; split <;> simp_all
  | cons c rest ih =>
    obtain ⟨d, u⟩ := c
    have hc := h
    simp only [cellsWf, Bool.and_eq_true, decide_eq_true_eq] at hc
    have hbelow : ∀ x, x ≤ d → readCells x rest = Config.unlistedWord :=
      fun x hx => readCells_below hc.2 (by omega)
    simp only [writeCells]
    split
    · rename_i had
      simp only [readCells_consCell, readCells]
      have := hbelow a (by omega)
      split <;> split <;> simp_all
      omega
    · split
      · subst_vars
        have := hbelow _ (Nat.le_refl _)
        simp only [readCells_consCell, readCells]
        split <;> split <;> simp_all
      · simp only [readCells, ih hc.2]
        split <;> split <;> simp_all

/-- A write answers its value at its address and leaves every other address alone. -/
theorem Store.read_write {size : Nat} {m : Store} (a b : Nat) (v : Word)
    (h : m.wf size = true) : (m.write a v).read b = if b = a then v else m.read b :=
  readCells_writeCells a b v h

/-- A write inside the store keeps its canonical form. -/
theorem Store.write_wf {size : Nat} {m : Store} {a : Nat} {v : Word}
    (ha : a < size) (h : m.wf size = true) : (m.write a v).wf size = true :=
  writeCells_wf (Nat.zero_le a) ha h

theorem cellsOfWords_wf (size a : Nat) (ws : List Word) (h : a + ws.length ≤ size) :
    cellsWf size a (cellsOfWords a ws) = true := by
  induction ws generalizing a with
  | nil => rfl
  | cons v rest ih =>
    simp only [List.length_cons] at h
    exact consCell_wf (Nat.le_refl a) (by omega) (ih (a + 1) (by omega))

/-- A store built from at most `size` words has the canonical form. -/
theorem storeOfWords_wf {size : Nat} {ws : List Word} (h : ws.length ≤ size) :
    (storeOfWords ws).wf size = true := cellsOfWords_wf size 0 ws (by omega)

/-- Words that read as unlisted leave no cell. -/
theorem cellsOfWords_unlisted (a : Nat) (ws : List Word) (h : ∀ w ∈ ws, w = Config.unlistedWord) :
    cellsOfWords a ws = [] := by
  induction ws generalizing a with
  | nil => rfl
  | cons w rest ih =>
    simp only [cellsOfWords]
    rw [ih (a + 1) fun x hx => h x (List.mem_cons_of_mem _ hx), consCell,
      if_pos (h w List.mem_cons_self)]

theorem readCells_cellsOfWords_below {a b : Nat} (ws : List Word) (h : b < a) :
    readCells b (cellsOfWords a ws) = Config.unlistedWord :=
  readCells_below (size := a + ws.length) (cellsOfWords_wf _ a ws (Nat.le_refl _)) h

theorem readCells_cellsOfWords (a b : Nat) (ws : List Word) :
    readCells (a + b) (cellsOfWords a ws) = ws.getD b Config.unlistedWord := by
  induction ws generalizing a b with
  | nil => simp [cellsOfWords, readCells]
  | cons v rest ih =>
    simp only [cellsOfWords, readCells_consCell]
    cases b with
    | zero =>
      have := readCells_cellsOfWords_below rest (Nat.lt_succ_self a)
      simp_all
    | succ n =>
      rw [show a + (n + 1) = (a + 1) + n by omega, ih]
      simp only [List.getD_cons_succ]
      split
      · rfl
      · rw [if_neg (by omega)]

/-- A store built from words holds the word of each index. -/
theorem storeOfWords_read (ws : List Word) (a : Nat) :
    (storeOfWords ws).read a = ws.getD a Config.unlistedWord := by
  have h := readCells_cellsOfWords 0 a ws
  rw [Nat.zero_add] at h
  exact h

/-- The stores of the reset state have the canonical form. -/
theorem reset_stores_wf :
    State.reset.imem.wf Config.imemWords = true ∧ State.reset.dmem.wf Config.dmemWords = true :=
  ⟨rfl, rfl⟩

/-- The two range checks read the address as an unsigned number below 65536. -/
theorem dataAddressValid_iff (a : Word) : dataAddressValid a = true ↔ a.toNat < 65536 := by
  have := a.isLt
  rw [dataAddressValid, decide_eq_true_eq]
  simp only [s32, Config.dmemWords, BitVec.toInt]
  split <;> omega

theorem fetchAddressValid_iff (a : Word) : fetchAddressValid a = true ↔ a.toNat < 65536 :=
  dataAddressValid_iff a

theorem addressIndex_of_valid {a : Word} (h : a.toNat < 65536) : addressIndex a = a.toNat := by
  simp only [addressIndex, s32, BitVec.toInt]
  split <;> omega

theorem memRead_eq_some {s : State} {a v : Word} :
    memRead s a = some v ↔ a.toNat < 65536 ∧ v = s.dmem.read a.toNat := by
  unfold memRead
  by_cases h : a.toNat < 65536
  · simp [(dataAddressValid_iff a).2 h, addressIndex_of_valid h, h, eq_comm]
  · simp [mt (dataAddressValid_iff a).1 h, h]

theorem memWrite_eq_some {s : State} {a v : Word} {m : Store} :
    memWrite s a v = some m ↔ a.toNat < 65536 ∧ m = s.dmem.write a.toNat v := by
  unfold memWrite
  by_cases h : a.toNat < 65536
  · simp [(dataAddressValid_iff a).2 h, addressIndex_of_valid h, h, eq_comm]
  · simp [mt (dataAddressValid_iff a).1 h, h]

theorem instrFetch_eq_some {s : State} {w : Word} :
    instrFetch s = some w ↔ s.pc.toNat < 65536 ∧ w = s.imem.read s.pc.toNat := by
  unfold instrFetch
  by_cases h : s.pc.toNat < 65536
  · simp [(fetchAddressValid_iff s.pc).2 h, addressIndex_of_valid h, h, eq_comm]
  · simp [mt (fetchAddressValid_iff s.pc).1 h, h]

theorem memRead_eq_none {s : State} {a : Word} : memRead s a = none ↔ 65536 ≤ a.toNat := by
  cases h : memRead s a with
  | none =>
    simp only [true_iff]; by_contra hc
    have := (memRead_eq_some (s := s) (a := a)).2 ⟨by omega, rfl⟩
    simp_all
  | some v => have := (memRead_eq_some.1 h).1; simp; omega

theorem memWrite_eq_none {s : State} {a v : Word} : memWrite s a v = none ↔ 65536 ≤ a.toNat := by
  cases h : memWrite s a v with
  | none =>
    simp only [true_iff]; by_contra hc
    have := (memWrite_eq_some (s := s) (a := a) (v := v)).2 ⟨by omega, rfl⟩
    simp_all
  | some m => have := (memWrite_eq_some.1 h).1; simp; omega

theorem instrFetch_eq_none {s : State} : instrFetch s = none ↔ 65536 ≤ s.pc.toNat := by
  cases h : instrFetch s with
  | none =>
    simp only [true_iff]; by_contra hc
    have := (instrFetch_eq_some (s := s)).2 ⟨by omega, rfl⟩
    simp_all
  | some m => have := (instrFetch_eq_some.1 h).1; simp; omega

end Sys2Proof.Machine
end

