-- ==== Sys2Proof/Laws/Tick.lean ====
section
/-! SUPPORT. One lemma per shared operation of a tick that says once everything it can do, and the same
for `step`. -/

namespace Sys2Proof.Machine

/-- What the end of a tick can do: flush, stall, advance, or raise the fetch fault (R103, R116). -/
theorem finishTick_cases (s : State) (k v : Word) (m : Store) (taken : Bool) :
    (taken = true ∧ finishTick s k v m taken = flushFront s (backEnd s k v m)) ∨
    (taken = false ∧ hazard s.ifid.instr s.idex.instr = true ∧
      finishTick s k v m taken = stallFront s (backEnd s k v m)) ∨
    (taken = false ∧ hazard s.ifid.instr s.idex.instr = false ∧ s.pc.toNat < 65536 ∧
      finishTick s k v m taken =
        advanceFront s (backEnd s k v m) (s.imem.read s.pc.toNat)) ∨
    (taken = false ∧ hazard s.ifid.instr s.idex.instr = false ∧ 65536 ≤ s.pc.toNat ∧
      finishTick s k v m taken = raiseFault s (.invalidAddressFetch s.pc s.cycles)) := by
  unfold finishTick
  cases taken
  · cases hz : hazard s.ifid.instr s.idex.instr
    · cases hf : instrFetch s with
      | none => simp [instrFetch_eq_none.1 hf]
      | some w =>
        obtain ⟨h, rfl⟩ := instrFetch_eq_some.1 hf
        simp [h]
    · simp
  · simp

/-- The Memory stage of ADD and NOR (R117). -/
theorem aluTick_cases (s : State) (k : Word) (rd : Half) :
    (rd.toNat ≤ 7 ∧ aluTick s k rd = finishTick s k s.exmem.aluResult s.dmem false) ∨
    (7 < rd.toNat ∧ aluTick s k rd = raiseFault s (.invalidInstruction k s.cycles)) := by
  unfold aluTick; split <;> simp_all

/-- The Memory stage of LW (R117, R47). -/
theorem loadTick_cases (s : State) (k : Word) :
    (s.exmem.aluResult.toNat < 65536 ∧
      loadTick s k = finishTick s k (s.dmem.read s.exmem.aluResult.toNat) s.dmem false) ∨
    (65536 ≤ s.exmem.aluResult.toNat ∧
      loadTick s k = raiseFault s (.invalidAddressData s.exmem.aluResult k s.cycles)) := by
  unfold loadTick
  split
  · rename_i h; obtain ⟨hlt, rfl⟩ := memRead_eq_some.1 h; exact .inl ⟨hlt, rfl⟩
  · rename_i h; simp [memRead_eq_none.1 h]

/-- The Memory stage of SW (R117, R48). -/
theorem storeTick_cases (s : State) (k : Word) :
    (s.exmem.aluResult.toNat < 65536 ∧
      storeTick s k = finishTick s k 0
        (s.dmem.write s.exmem.aluResult.toNat s.exmem.readRegB) false) ∨
    (65536 ≤ s.exmem.aluResult.toNat ∧
      storeTick s k = raiseFault s (.invalidAddressData s.exmem.aluResult k s.cycles)) := by
  unfold storeTick
  split
  · rename_i h; obtain ⟨hlt, rfl⟩ := memWrite_eq_some.1 h; exact .inl ⟨hlt, rfl⟩
  · rename_i h; simp [memWrite_eq_none.1 h]

/-- The register file after Writeback, register by register (R118). -/
theorem readReg_writeReg (x : Vector Word 8) (d : Option Half) (v : Word) (r : Reg) :
    readReg (writeReg x d v) r = if namesReg d r then v else readReg x r := by
  have hr := r.isLt
  cases d with
  | none => simp [writeReg, namesReg]
  | some n =>
    have hn : namesReg (some n) r = decide (n.toNat = r.toNat) := by
      simp only [namesReg]
      rw [Bool.eq_iff_iff]
      simp only [beq_iff_eq, Option.some.injEq, decide_eq_true_eq]
      constructor
      · rintro rfl; simp; omega
      · intro h; apply BitVec.eq_of_toNat_eq; simp; omega
    rw [hn]
    simp only [writeReg, readReg]
    split
    · simp [Vector.getElem_set]
    · rw [if_neg]; simp; omega

/-- Two register files with the same eight registers are the same. -/
theorem regs_ext {x y : Vector Word 8} (h : ∀ r : Reg, readReg x r = readReg y r) : x = y := by
  apply Vector.ext
  intro i hi
  have := h (BitVec.ofNat 3 i)
  simpa [readReg, Nat.mod_eq_of_lt hi] using this

/-- What one step can do, said once: nothing in a terminal status (R225), the halting tick (R101), the
fault of an Undefined word (R173), or the instruction in EXMEM (R117). -/
theorem step_cases (s : State) :
    (s.status ≠ .running ∧ step s = .next s) ∨
    (s.status = .running ∧ isHalt s.memwb.instr = true ∧ step s = .next (enterHalted s)) ∨
    (s.status = .running ∧ isHalt s.memwb.instr = false ∧ instrOf s.exmem.instr = none ∧
      step s = .next (undefinedTick s)) ∨
    (s.status = .running ∧ isHalt s.memwb.instr = false ∧
      ∃ i, instrOf s.exmem.instr = some i ∧ step s = exec i s) := by
  unfold step
  cases hs : s.status with
  | halted => simp
  | faulted f => simp
  | running =>
    cases hh : isHalt s.memwb.instr
    · cases hi : instrOf s.exmem.instr with
      | none => simp
      | some i => simp
    · simp

end Sys2Proof.Machine
end

