-- ==== Sys2Proof/Tests/Slice0.lean ====
section
/-! SUPPORT. Named tests: the smoke test of WellFormed, words written out from 30_encoding.md, small
one-step tests with the spec's own expected values, and for every statement with hypotheses a concrete
state that meets them. -/

namespace Sys2Proof.Tests

open Sys2Proof.Machine

/-! ### WellFormed (R65, R66) -/

/-- ADD with destination number 8 is ill-formed (vector EN-13's word). -/
theorem test_add_ill_formed : (Instr.add 0 0 8).wellFormed = false := by decide

/-- NOR with every bit of field2 set is ill-formed. -/
theorem test_nor_ill_formed : (Instr.nor 1 2 65535).wellFormed = false := by decide

/-- The largest legal destination, and forms with no constraint at their largest field2. -/
theorem test_well_formed :
    (Instr.add 7 7 7).wellFormed = true ∧ (Instr.nor 7 7 7).wellFormed = true ∧
    (Instr.lw 7 7 65535).wellFormed = true ∧ (Instr.sw 7 7 65535).wellFormed = true ∧
    (Instr.beq 7 7 65535).wellFormed = true ∧ (Instr.jalr 7 7 65535).wellFormed = true ∧
    (Instr.halt 7 7 65535).wellFormed = true ∧ (Instr.noop 7 7 65535).wellFormed = true := by
  decide

/-! ### Words written bit by bit from R60: 7 unused, 3 opcode, 3 field0, 3 field1, 16 field2 -/

theorem test_decode_add :
    decode 0b0000000_000_001_010_0000000000000011#32 = .ok (.add 1 2 3) := by decide

theorem test_decode_nor :
    decode 0b0000000_001_110_101_0000000000000100#32 = .ok (.nor 6 5 4) := by decide

theorem test_decode_lw :
    decode 0b0000000_010_011_001_1111111111111110#32 = .ok (.lw 3 1 65534) := by decide

theorem test_decode_sw :
    decode 0b0000000_011_100_010_0000000000001010#32 = .ok (.sw 4 2 10) := by decide

theorem test_decode_beq :
    decode 0b0000000_100_101_110_1000000000000001#32 = .ok (.beq 5 6 32769) := by decide

theorem test_decode_jalr :
    decode 0b0000000_101_001_011_0000000000000000#32 = .ok (.jalr 1 3 0) := by decide

theorem test_decode_halt :
    decode 0b0000000_110_000_000_0000000000000000#32 = .ok (.halt 0 0 0) := by decide

theorem test_decode_noop :
    decode 0b0000000_111_010_100_0000000000000001#32 = .ok (.noop 2 4 1) := by decide

/-- Each of the seven bits 31:25 makes a word Undefined (R62): the lowest and the highest of them. -/
theorem test_decode_undefined :
    decode 0b0000001_000_000_000_0000000000000000#32 = .error (.undefinedOpcode 8) ∧
    decode 0b1000000_000_000_000_0000000000000000#32 = .error (.undefinedOpcode (-512)) := by
  decide

/-- The encodings of vectors EN-1 and EN-5, and of R160's example `BEQ r0,r0,5`. -/
theorem test_encode :
    encode (.lw 0 1 0) = 8454144#32 ∧ encode (.beq 0 0 5) = 16777221#32 ∧
    encode (.jalr 1 1 0) = 21561344#32 := by decide

/-- The decoder at opcode-table words: the match value of each row of R66, and an Undefined word. -/
theorem test_decodeTableWord :
    decodeTableWord 32 0x00000000 = some (.add 0 0 0) ∧
    decodeTableWord 32 0x00400000 = some (.nor 0 0 0) ∧
    decodeTableWord 32 0x00800000 = some (.lw 0 0 0) ∧
    decodeTableWord 32 0x00C00000 = some (.sw 0 0 0) ∧
    decodeTableWord 32 0x01000000 = some (.beq 0 0 0) ∧
    decodeTableWord 32 0x01400000 = some (.jalr 0 0 0) ∧
    decodeTableWord 32 0x01800000 = some (.halt 0 0 0) ∧
    decodeTableWord 32 0x01C00000 = some (.noop 0 0 0) ∧
    decodeTableWord 32 0x02000000 = none := by decide

/-! ### States for the tests -/

/-- Whether a step answers a next state. -/
def isNext : Host.Outcome State Fault Refusal → Bool
  | .next _ => true
  | .fault _ => false
  | .refused _ => false

/-- The state after one step. -/
def after (s : State) : State :=
  match step s with
  | .next t => t
  | .fault _ => s
  | .refused _ => s

theorem step_after {s : State} (h : isNext (step s) = true) : step s = .next (after s) := by
  unfold after
  cases hs : step s with
  | next t => rfl
  | fault f => rw [hs] at h; cases h
  | refused r => rw [hs] at h; cases h

theorem run_after {n : Nat} {s : State} (h : isNext (step s) = true) :
    core.run (n + 1) s = core.run n (after s) := by
  simp only [Host.Core.run]
  rw [show core.step s = .next (after s) from step_after h]

theorem ticks_after {s : State}
    (h : s.status = .running ∧ isNext (step s) = true ∧ (after s).status = .running) :
    Ticks s (after s) :=
  ⟨h.1, step_after h.2.1, h.2.2⟩

/-- r0 = 0, r1 = 2147483647, r2 = 1, r3 = 30, r4 = -1, r5 = 65535, r6 = 5, r7 = 5. -/
def someRegs : Vector Word 8 := #v[0, 2147483647, 1, 30, 0xFFFFFFFF, 65535, 5, 5]

/-- The registers above, data word 30 = 77, the instruction store all NOOP where it is fetched, `pc` 10,
cycle 10, bubbles in every latch. -/
def base : State :=
  { State.reset with
    pc := 10
    imem := ⟨[(10, 0x01C00000), (11, 0x01C00000), (12, 0x01C00000), (13, 0x01C00000)]⟩
    dmem := ⟨[(30, 77)]⟩
    reg := someRegs
    cycles := 10 }

/-- `i` in Execute, fetched at address 8, its registers read. -/
def inExecute (i : Instr) : State :=
  { base with
    idex := ⟨encode i, 9, readReg someRegs i.field0, readReg someRegs i.field1, sext16 i.field2⟩ }

/-- `i` in the Memory stage, fetched at address 7, with the given ALU result and second operand. -/
def inMemory (i : Instr) (result b : Word) : State :=
  { base with exmem := ⟨encode i, sext16 i.field2 + 8, result, b⟩ }

/-- `i` in Writeback with the given write data. -/
def inWriteback (i : Instr) (v : Word) : State := { base with memwb := ⟨encode i, v⟩ }

/-! ### One step of each instruction -/

/-- R140's example: 2147483647 + 1 wraps to -2147483648. -/
theorem test_add_wraps :
    (after (inExecute (.add 1 2 3))).exmem.aluResult = 0x80000000#32 := by decide

/-- R118: the write data of an ADD in MEMWB goes to field2, not to field1. -/
theorem test_add_writes_back :
    (after (inWriteback (.add 1 2 3) 99)).reg = #v[0, 2147483647, 1, 99, 0xFFFFFFFF, 65535, 5, 5] := by
  decide

/-- R141's example: `NOR r4,r0,r0` gives -1. -/
theorem test_nor_minus_one :
    (after (inExecute (.nor 0 0 4))).exmem.aluResult = 0xFFFFFFFF#32 := by decide

/-- R203: NOR with field2 = 8 faults in the Memory stage with its word and `cycles`. -/
theorem test_nor_illegal :
    (after (inMemory (.nor 0 0 8) 0 0)).status =
      .faulted (.invalidInstruction 0x00400008#32 10) := by decide

/-- R150: the offset -2 from base 5 gives address 3, and a LW reads its word. -/
theorem test_lw_address : (after (inExecute (.lw 6 1 65534))).exmem.aluResult = 3#32 := by decide

theorem test_lw_reads : (after (inMemory (.lw 0 1 30) 30 0)).memwb.writeData = 77#32 := by decide

/-- R151: SW stores the whole word at its address. -/
theorem test_sw_stores :
    (after (inMemory (.sw 0 4 31) 31 0xFFFFFFFF)).dmem = ⟨[(30, 77), (31, 0xFFFFFFFF)]⟩ := by decide

/-- R204: SW at address 65536, the first beyond the store, faults. -/
theorem test_sw_out_of_range :
    (after (inMemory (.sw 0 4 1) 65536 9)).status =
      .faulted (.invalidAddressData 65536#32 (encode (.sw 0 4 1)) 10) := by decide

/-- R160's example: a taken `BEQ r0,r0,5` at address 7 goes to 7 + 1 + 5. -/
theorem test_beq_taken : (after (inMemory (.beq 0 0 5) 0 0)).pc = 13#32 := by decide

/-- R160: not taken, fetch goes on. -/
theorem test_beq_not_taken : (after (inMemory (.beq 0 1 5) 1 0)).pc = 11#32 := by decide

/-- R170: JALR writes no link register and does not jump. -/
theorem test_jalr_no_effect :
    (after (inMemory (.jalr 1 2 0) 0 0)).pc = 11#32 ∧
    (after (inWriteback (.jalr 1 2 0) 0)).reg = someRegs := by decide

/-- R101: a HALT in MEMWB stops the core, with `cycles` unchanged. -/
theorem test_halt_stops :
    (after (inWriteback (.halt 0 0 0) 0)).status = .halted ∧
    (after (inWriteback (.halt 0 0 0) 0)).cycles = 10 := by decide

/-- R172: a NOOP with non-zero fields is a NOOP. -/
theorem test_noop_fields_ignored :
    (after (inWriteback (.noop 7 7 65535) 0)).reg = someRegs ∧
    (after (inMemory (.noop 7 7 65535) 0 0)).pc = 11#32 := by decide

/-- R107, R108: `ADD r2,r1,r1` behind `LW r1,...` is held for a tick. -/
theorem test_load_use_stall :
    (after { inExecute (.lw 0 1 30) with ifid := ⟨encode (.add 1 1 2), 10⟩ }).ifid =
      ⟨encode (.add 1 1 2), 10⟩ := by decide

/-- R110: of two producers of r3 the one in EXMEM wins over the one in MEMWB (FW-5's case). -/
theorem test_nearer_producer_wins :
    forward { base with
      exmem := ⟨encode (.add 0 0 3), 0, 64, 0⟩
      memwb := ⟨encode (.add 0 0 3), 20⟩ } 3 30 = 64#32 := by decide

/-- An instruction word placed by `withFetchWord` is the first instruction `step` runs after reset. -/
theorem test_withFetchWord_add :
    step (State.reset.withFetchWord 32 0x000A0003) =
      exec (.add 1 2 3) (State.reset.withFetchWord 32 0x000A0003) := rfl

theorem test_withFetchWord_beq :
    step (State.reset.withFetchWord 32 0x01000005) =
      exec (.beq 0 0 5) (State.reset.withFetchWord 32 0x01000005) := rfl

/-! ### The hypotheses of the statements are met

One theorem or more for every statement with hypotheses, at the boundary values of its clauses. -/

theorem witness_EncodeOfDecode :
    decode 0x01FFFFFF#32 = .ok (.noop 7 7 65535) ∧ decode 0#32 = .ok (.add 0 0 0) := by decide

theorem witness_OpcodeValidity :
    (0x01FFFFFF#32).extractLsb' 25 7 = 0 ∧ (0x02000000#32).extractLsb' 25 7 ≠ 0 ∧
    (0x80000000#32).extractLsb' 25 7 ≠ 0 := by decide

theorem witness_LoadEstablishesResetValues :
    (([-2 ^ 31, 2 ^ 31 - 1] : List Int).length ≤ 65536 ∧
      ∀ v ∈ ([-2 ^ 31, 2 ^ 31 - 1] : List Int), -2 ^ 31 ≤ v ∧ v < 2 ^ 31) ∧
    ((List.replicate 65536 (0 : Int)).length ≤ 65536 ∧
      ∀ v ∈ List.replicate 65536 (0 : Int), -2 ^ 31 ≤ v ∧ v < 2 ^ 31) := by
  refine ⟨by decide, by rw [List.length_replicate], fun v hv => ?_⟩
  rw [List.eq_of_mem_replicate hv]
  decide

theorem witness_LoadErrorsOnBadImage_value :
    ¬ (([2 ^ 31] : List Int).length ≤ 65536 ∧
      ∀ v ∈ ([2 ^ 31] : List Int), -2 ^ 31 ≤ v ∧ v < 2 ^ 31) ∧
    ¬ (([0, -2 ^ 31 - 1] : List Int).length ≤ 65536 ∧
      ∀ v ∈ ([0, -2 ^ 31 - 1] : List Int), -2 ^ 31 ≤ v ∧ v < 2 ^ 31) := by decide

theorem witness_LoadErrorsOnBadImage_length :
    ¬ ((List.replicate 65537 (0 : Int)).length ≤ 65536 ∧
      ∀ v ∈ List.replicate 65537 (0 : Int), -2 ^ 31 ≤ v ∧ v < 2 ^ 31) := by
  rintro ⟨h, -⟩
  rw [List.length_replicate] at h
  exact absurd h (by decide)

theorem witness_StepRunsDecodedInstruction :
    RunsTick (inMemory (.sw 0 4 31) 31 9) ∧
    decode (inMemory (.sw 0 4 31) 31 9).exmem.instr = .ok (.sw 0 4 31) :=
  ⟨⟨by decide, by decide⟩, by decide⟩

theorem witness_FetchedWordReachesExec :
    ∃ s1 s2 s3 i, Ticks base s1 ∧ Ticks s1 s2 ∧ Ticks s2 s3 ∧
      branchTaken base = false ∧ branchTaken s1 = false ∧ branchTaken s2 = false ∧
      hazard base.ifid.instr base.idex.instr = false ∧ hazard s1.ifid.instr s1.idex.instr = false ∧
      isHalt s3.memwb.instr = false ∧ decode (base.imem.read base.pc.toNat) = .ok i :=
  ⟨_, _, _, .noop 0 0 0, ticks_after (by decide), ticks_after (by decide), ticks_after (by decide),
    by decide, by decide, by decide, by decide, by decide, by decide, by decide⟩

theorem witness_HaltCheckStopsCore :
    (inWriteback (.halt 7 7 65535) 0).status = .running ∧
    (inWriteback (.halt 7 7 65535) 0).memwb.instr = encode (.halt 7 7 65535) := by decide

theorem witness_TerminalStatesIgnoreSteps :
    ({ base with status := .halted } : State).status ≠ .running ∧
    ({ base with status := .faulted (.invalidAddressFetch 65536 9) } : State).status ≠ .running := by
  decide

theorem witness_UndefinedWordFaults :
    RunsTick { base with exmem := ⟨0x02000000#32, 0, 0, 0⟩ } ∧
    (0x02000000#32).extractLsb' 25 7 ≠ 0 := ⟨⟨by decide, by decide⟩, by decide⟩

/-- The fetch hypothesis at its two boundaries: `pc` 65535, and a stall with `pc` 65536. -/
theorem witness_FetchOk :
    FetchOk { base with pc := 65535 } ∧
    FetchOk { inExecute (.lw 0 1 30) with ifid := ⟨encode (.add 1 1 2), 10⟩, pc := 65536 } :=
  ⟨.inr (by decide), .inl (by decide)⟩

theorem witness_AddCompletes :
    (inMemory (.add 1 2 7) (2147483647 + 1) 1).exmem =
      ⟨encode (.add 1 2 7), 15, 2147483647 + 1, 1⟩ ∧
    (7 : Half).toNat ≤ 7 ∧ FetchOk (inMemory (.add 1 2 7) (2147483647 + 1) 1) :=
  ⟨by decide, by decide, .inr (by decide)⟩

theorem witness_NorCompletes :
    (inMemory (.nor 0 2 0) (~~~(0 ||| 1)) 1).exmem = ⟨encode (.nor 0 2 0), 8, ~~~(0 ||| 1), 1⟩ ∧
    (0 : Half).toNat ≤ 7 ∧ FetchOk (inMemory (.nor 0 2 0) (~~~(0 ||| 1)) 1) :=
  ⟨by decide, by decide, .inr (by decide)⟩

theorem witness_IllegalDestinationFaults :
    7 < (8 : Half).toNat ∧ 7 < (65535 : Half).toNat := by decide

/-- LW at address 0 (base 5, offset -5) and SW at address 65535, the ends of the range. -/
theorem witness_LwCompletes :
    (inMemory (.lw 6 1 65531) (5 + sext16 65531) 0).exmem =
      ⟨encode (.lw 6 1 65531), 3, 5 + sext16 65531, 0⟩ ∧
    DataAddressOk (5 + sext16 65531) ∧ FetchOk (inMemory (.lw 6 1 65531) (5 + sext16 65531) 0) :=
  ⟨by decide, ⟨by decide, by decide⟩, .inr (by decide)⟩

theorem witness_SwCompletes :
    (inMemory (.sw 5 4 0) (65535 + sext16 0) 9).exmem =
      ⟨encode (.sw 5 4 0), 8, 65535 + sext16 0, 9⟩ ∧
    (inMemory (.sw 5 4 0) (65535 + sext16 0) 9).dmem.wf Config.dmemWords = true ∧
    DataAddressOk (65535 + sext16 0) ∧ FetchOk (inMemory (.sw 5 4 0) (65535 + sext16 0) 9) :=
  ⟨by decide, by decide, ⟨by decide, by decide⟩, .inr (by decide)⟩

theorem witness_DataAddressFaults :
    ¬ DataAddressOk (inMemory (.lw 0 1 0) 65536 0).exmem.aluResult ∧
    ¬ DataAddressOk (inMemory (.sw 0 1 65535) 0xFFFFFFFF 0).exmem.aluResult :=
  ⟨fun h => absurd h.2 (by decide), fun h => absurd h.1 (by decide)⟩

theorem witness_BeqNotTakenCompletes :
    (inMemory (.beq 1 2 5) (7 - 8) 8).exmem = ⟨encode (.beq 1 2 5), sext16 5 + 8, 7 - 8, 8⟩ ∧
    (7 : Word) ≠ 8 ∧ FetchOk (inMemory (.beq 1 2 5) (7 - 8) 8) :=
  ⟨by decide, by decide, .inr (by decide)⟩

theorem witness_BeqTakenCompletes :
    (inMemory (.beq 6 7 65535) (5 - 5) 5).exmem =
      ⟨encode (.beq 6 7 65535), sext16 65535 + 8, 5 - 5, 5⟩ := by decide

theorem witness_FaultCommitsNothing :
    ∃ t f, base.status = .running ∧
      step { base with pc := 65536 } = .next t ∧ t.status = .faulted f :=
  ⟨_, .invalidAddressFetch 65536 10, rfl, step_after (by decide), by decide⟩

/-- One state for each clause of the priority statement, at the boundary where two could apply: a HALT
with an Undefined word behind it; an Undefined word with a bad `pc`; a bad SW with a bad `pc`; a bad
`pc` alone. -/
theorem witness_FaultPriority :
    (∃ t, step { inWriteback (.halt 0 0 0) 0 with
        exmem := ⟨0xFFFFFFFF, 0, 0, 0⟩, pc := 65536 } = .next t ∧ t.status = .halted) ∧
    (∃ t, step { base with exmem := ⟨0xFFFFFFFF, 0, 0, 0⟩, pc := 65536 } = .next t ∧
      legalWord 0xFFFFFFFF = false) ∧
    (∃ t, step { inMemory (.sw 0 1 0) 65536 0 with pc := 65536 } = .next t ∧
      ¬ DataAddressOk 65536) ∧
    (∃ t, step { inMemory (.sw 0 1 0) 65535 0 with pc := 65536 } = .next t ∧
      legalWord (encode (.sw 0 1 0)) = true ∧ DataAddressOk 65535) :=
  ⟨⟨_, step_after (by decide), by decide⟩, ⟨_, step_after (by decide), by decide⟩,
    ⟨_, step_after (by decide), fun h => absurd h.2 (by decide)⟩,
    ⟨_, step_after (by decide), by decide, by decide, by decide⟩⟩

theorem witness_AluTable_registers :
    (∃ t, Ticks (inExecute (.add 1 2 3)) t ∧ branchTaken (inExecute (.add 1 2 3)) = false) ∧
    (∃ t, Ticks (inExecute (.nor 0 0 4)) t ∧ branchTaken (inExecute (.nor 0 0 4)) = false) ∧
    (∃ t, Ticks (inExecute (.beq 6 7 5)) t ∧ branchTaken (inExecute (.beq 6 7 5)) = false) :=
  ⟨⟨_, ticks_after (by decide), by decide⟩, ⟨_, ticks_after (by decide), by decide⟩,
    ⟨_, ticks_after (by decide), by decide⟩⟩

theorem witness_AluTable_rest :
    (∃ t, Ticks (inExecute (.lw 0 1 30)) t ∧ branchTaken (inExecute (.lw 0 1 30)) = false) ∧
    (∃ t, Ticks (inExecute (.sw 0 1 30)) t ∧ branchTaken (inExecute (.sw 0 1 30)) = false) ∧
    (∃ t, Ticks (inExecute (.jalr 1 1 0)) t ∧ branchTaken (inExecute (.jalr 1 1 0)) = false) ∧
    (∃ t, Ticks { base with idex := ⟨0xFFFFFFFF, 9, 5, 5, 1⟩ } t ∧
      (0xFFFFFFFF#32).extractLsb' 25 7 ≠ 0) :=
  ⟨⟨_, ticks_after (by decide), by decide⟩, ⟨_, ticks_after (by decide), by decide⟩,
    ⟨_, ticks_after (by decide), by decide⟩, ⟨_, ticks_after (by decide), by decide⟩⟩

theorem witness_AluWrites : AluWrites (encode (.add 1 2 7)) 7 ∧ AluWrites (encode (.nor 1 2 0)) 0 :=
  ⟨⟨1, 2, 7, .inl rfl, by decide⟩, ⟨1, 2, 0, .inr rfl, by decide⟩⟩

theorem witness_WritesReg : WritesReg (encode (.lw 1 7 3)) 7 ∧ ¬ AluWrites (encode (.lw 1 7 3)) 7 := by
  refine ⟨.inr ⟨1, 3, rfl⟩, ?_⟩
  rintro ⟨a, b, d, h, -⟩
  have hop : opcodeField (encode (.lw 1 7 3)) = 2 := opcodeField_enc ..
  rcases h with h | h
  · rw [h, show opcodeField (encode (.add a b d)) = 0 from opcodeField_enc ..] at hop
    exact absurd hop (by decide)
  · rw [h, show opcodeField (encode (.nor a b d)) = 1 from opcodeField_enc ..] at hop
    exact absurd hop (by decide)

theorem witness_ReadsReg :
    ReadsReg (encode (.add 1 7 2)) 7 ∧ ReadsReg (encode (.lw 1 7 2)) 1 ∧
    ReadsReg (encode (.sw 1 7 2)) 7 ∧ ReadsReg (encode (.beq 1 7 2)) 1 :=
  ⟨.inl ⟨1, 7, 2, .inl rfl, .inr rfl⟩, .inr ⟨1, 7, 2, rfl, rfl⟩,
    .inl ⟨1, 7, 2, .inr (.inr (.inr rfl)), .inr rfl⟩, .inl ⟨1, 7, 2, .inr (.inr (.inl rfl)), .inl rfl⟩⟩

/-- `LW r1,r0,30` in Execute with `ADD r2,r1,r1` behind it. -/
def loadUse : State := { inExecute (.lw 0 1 30) with ifid := ⟨encode (.add 1 1 2), 10⟩ }

theorem witness_StallLastsOneTick :
    ∃ t, Ticks loadUse t ∧ branchTaken loadUse = false ∧
      hazard loadUse.ifid.instr loadUse.idex.instr = true :=
  ⟨_, ticks_after (by decide), by decide, by decide⟩

theorem witness_LoadUseDeliversLoadedWord :
    ∃ s1 s2, Ticks loadUse s1 ∧ Ticks s1 s2 ∧ branchTaken loadUse = false ∧
      loadUse.idex.instr = encode (.lw 0 1 30) ∧ ReadsReg loadUse.ifid.instr 1 ∧
      f0 loadUse.ifid.instr = 1 ∧ f1 loadUse.ifid.instr = 1 :=
  ⟨_, _, ticks_after (by decide), ticks_after (by decide), by decide, by decide,
    .inl ⟨1, 1, 2, .inl rfl, .inl rfl⟩, by decide, by decide⟩

theorem witness_WritebackWritesDestination :
    (∃ t, Ticks (inWriteback (.lw 0 7 30) 77) t ∧
      WritesReg (inWriteback (.lw 0 7 30) 77).memwb.instr 7) :=
  ⟨_, ticks_after (by decide), .inr ⟨0, 30, rfl⟩⟩

theorem witness_CyclesCountTicks :
    (∃ t, step base = .next t ∧ t.status = .running) ∧
    (∃ t, step (inWriteback (.halt 0 0 0) 0) = .next t ∧ t.status ≠ .running) :=
  ⟨⟨_, step_after (by decide), by decide⟩, ⟨_, step_after (by decide), by decide⟩⟩

theorem witness_InstructionStoreNeverChanges :
    ∃ t, core.run 2 (inMemory (.sw 0 4 11) 11 9) = .next t := by
  rw [run_after (by decide), run_after (by decide)]
  exact ⟨_, rfl⟩

theorem witness_OnlySwChangesDataStore :
    ∃ t, (inMemory (.sw 0 4 65535) 65535 9).dmem.wf Config.dmemWords = true ∧
      step (inMemory (.sw 0 4 65535) 65535 9) = .next t ∧
      t.dmem.read 65535 ≠ (inMemory (.sw 0 4 65535) 65535 9).dmem.read 65535 :=
  ⟨_, by decide, step_after (by decide), by decide⟩

theorem witness_AluResultReachesRegister :
    (∃ s1 s2 s3, Ticks (inExecute (.add 1 2 7)) s1 ∧ Ticks s1 s2 ∧ Ticks s2 s3 ∧
      branchTaken (inExecute (.add 1 2 7)) = false ∧ (7 : Half).toNat = (7 : Reg).toNat ∧
      (inExecute (.add 1 2 7)).idex.instr = encode (.add 1 2 7)) ∧
    (∃ s1 s2 s3, Ticks (inExecute (.nor 1 2 0)) s1 ∧ Ticks s1 s2 ∧ Ticks s2 s3 ∧
      branchTaken (inExecute (.nor 1 2 0)) = false ∧ (0 : Half).toNat = (0 : Reg).toNat ∧
      (inExecute (.nor 1 2 0)).idex.instr = encode (.nor 1 2 0)) :=
  ⟨⟨_, _, _, ticks_after (by decide), ticks_after (by decide), ticks_after (by decide), by decide,
      by decide, by decide⟩,
    ⟨_, _, _, ticks_after (by decide), ticks_after (by decide), ticks_after (by decide), by decide,
      by decide, by decide⟩⟩

theorem witness_LoadedWordReachesRegister :
    ∃ s1 s2 s3, Ticks (inExecute (.lw 5 1 0)) s1 ∧ Ticks s1 s2 ∧ Ticks s2 s3 ∧
      branchTaken (inExecute (.lw 5 1 0)) = false ∧
      (inExecute (.lw 5 1 0)).idex.instr = encode (.lw 5 1 0) :=
  ⟨_, _, _, ticks_after (by decide), ticks_after (by decide), ticks_after (by decide), by decide,
    by decide⟩

/-- `SW r6,r0,31` in Execute with `LW r1,r0,31` behind it. -/
def storeLoad : State := { inExecute (.sw 0 6 31) with ifid := ⟨encode (.lw 0 1 31), 10⟩ }

theorem witness_StoredWordIsLoadedNext :
    ∃ s1 s2 s3, Ticks storeLoad s1 ∧ Ticks s1 s2 ∧ Ticks s2 s3 ∧
      branchTaken storeLoad = false ∧ s1.dmem.wf Config.dmemWords = true ∧
      storeLoad.idex.instr = encode (.sw 0 6 31) ∧ s1.idex.instr = encode (.lw 0 1 31) ∧
      operandA s1 + s1.idex.offset = operandA storeLoad + storeLoad.idex.offset :=
  ⟨_, _, _, ticks_after (by decide), ticks_after (by decide), ticks_after (by decide), by decide,
    by decide, by decide, by decide, by decide⟩

theorem witness_TakenBranchFetchesTarget :
    ∃ s1 s2 s3, Ticks (inExecute (.beq 6 7 1)) s1 ∧ Ticks s1 s2 ∧ Ticks s2 s3 ∧
      branchTaken (inExecute (.beq 6 7 1)) = false ∧
      (inExecute (.beq 6 7 1)).idex.instr = encode (.beq 6 7 1) ∧
      operandA (inExecute (.beq 6 7 1)) = operandB (inExecute (.beq 6 7 1)) :=
  ⟨_, _, _, ticks_after (by decide), ticks_after (by decide), ticks_after (by decide), by decide,
    by decide, by decide⟩

/-- A HALT in the Memory stage with an Undefined word in Execute behind it. -/
theorem witness_NothingAfterHaltCommits :
    ∃ t, Ticks { inMemory (.halt 0 0 0) 0 0 with idex := ⟨0xFFFFFFFF, 9, 0, 0, 0⟩ } t ∧
      (inMemory (.halt 0 0 0) 0 0).exmem.instr = encode (.halt 0 0 0) :=
  ⟨_, ticks_after (by decide), by decide⟩

theorem witness_StepResultReports :
    ({ base with status := .halted } : State).status = .halted ∧
    ({ base with status := .faulted (.invalidAddressFetch 65536 9) } : State).status =
      .faulted (.invalidAddressFetch 65536 9) := by decide

theorem witness_CanonicalStoresAreEqual :
    Store.wf 2 ⟨[(0, 5), (1, 6)]⟩ = true ∧ Store.wf 2 ((Store.write ⟨[(1, 6)]⟩ 0 5)) = true ∧
    ∀ a, a < 2 → Store.read ⟨[(0, 5), (1, 6)]⟩ a = (Store.write ⟨[(1, 6)]⟩ 0 5).read a := by decide

/-! A run from a loaded image, for the statements about reachable states. -/

/-- The one-word program `HALT` of vector SY-1, with `UNLOADED` 0. -/
def haltLoaded : State := State.loaded ⟨[(0, 0x01800000)]⟩ ⟨[(0, 0x01800000)]⟩

theorem witness_load : load (fun _ => 0) [25165824] = .next haltLoaded := by
  have h : storeOfWords (imageContents (fun _ => 0) [25165824]) = ⟨[(0, 0x01800000)]⟩ := by
    unfold storeOfWords imageContents
    rw [List.map_singleton, List.singleton_append, cellsOfWords, cellsOfWords_unlisted]
    · decide
    · intro w hw
      obtain ⟨_, _, rfl⟩ := List.mem_map.1 hw
      rfl
  rw [load, show badImageWord 0 [25165824] = none by decide]
  simp only [h]
  rfl

/-- `LW r1,r0,30` in the Memory stage and `NOR r2,r3,r6` behind it in Execute, as the pipeline has them
in a run of a program that holds these words at 7 and 8 and `ADD r4,r1,r1` at 9. -/
def midRun : State :=
  { base with
    imem := ⟨[(7, encode (.lw 0 1 30)), (8, encode (.nor 3 6 2)), (9, encode (.add 1 1 4))]⟩
    ifid := ⟨encode (.add 1 1 4), 10⟩
    idex := ⟨encode (.nor 3 6 2), 9, 30, 5, 2⟩
    exmem := ⟨encode (.lw 0 1 30), 38, 30, 2147483647⟩ }

theorem midRun_ticks : Ticks midRun (after midRun) := ticks_after (by decide)

theorem witness_StateWfKept : StateWf midRun ∧ step midRun = .next (after midRun) :=
  ⟨{ imem := by decide
     dmem := by decide
     memwb_legal := by decide
     wbend_legal := by decide
     memwb_zero := by decide
     wbend_zero := by decide
     exmem_zero := by decide
     idex_offset := by decide
     ifid_range := by decide
     idex_range := by decide
     ifid_zero := by decide
     idex_zero := by decide
     target_range := by decide
     pc_range := by decide
     status := fun n h => by cases h }, midRun_ticks.2.1⟩

theorem midRun_pipelineInv : PipelineInv midRun :=
  { ifid_live := by decide
    ifid_bubble := by decide
    idex_live := by decide
    idex_bubble := by decide
    exmem_live := by decide
    exmem_bubble := by decide
    exmem_stall := by decide
    wbend_written := by decide
    idex_readRegA := by decide
    idex_readRegB := by decide
    no_load_use := by decide
    exmem_result := by decide
    exmem_stored := by decide }

theorem witness_PipelineInvKept : PipelineInv midRun ∧ step midRun = .next (after midRun) :=
  ⟨midRun_pipelineInv, midRun_ticks.2.1⟩

theorem witness_OperandsAreProgramValues :
    PipelineInv midRun ∧ f0 midRun.idex.instr ∈ sourcesOf midRun.idex.instr ∧
    f1 midRun.idex.instr ∈ sourcesOf midRun.idex.instr :=
  ⟨midRun_pipelineInv, by decide, by decide⟩

theorem witness_TickRefinesSequentialMachine :
    PipelineInv midRun ∧ midRun.status = .running ∧ step midRun = .next (after midRun) ∧
    (∀ f, (after midRun).status ≠ .faulted f) ∧ exmemLive midRun = true ∧
    isHalt midRun.memwb.instr = false :=
  ⟨midRun_pipelineInv, rfl, midRun_ticks.2.1,
    by rw [midRun_ticks.2.2]; exact fun f h => Status.noConfusion h, by decide, by decide⟩

theorem witness_HaltedRunMatchesSequentialMachine :
    ∃ t, load (fun _ => 0) [25165824] = .next haltLoaded ∧ core.run 5 haltLoaded = .next t ∧
      t.status = .halted ∧ t.cycles = 4 ∧ t.pc = 4 := by
  rw [run_after (by decide), run_after (by decide), run_after (by decide), run_after (by decide),
    run_after (by decide)]
  exact ⟨_, witness_load, rfl, by decide, by decide, by decide⟩

theorem witness_CycleLaw :
    ∃ t c, load (fun _ => 0) [25165824] = .next haltLoaded ∧
      runTally 5 (haltLoaded, ⟨0, 0, 0⟩) = (t, c) ∧ t.status = .halted :=
  ⟨(runTally 5 (haltLoaded, ⟨0, 0, 0⟩)).1, (runTally 5 (haltLoaded, ⟨0, 0, 0⟩)).2, witness_load, rfl,
    by decide⟩

/-- The clause before a HALT, in the middle of a run: 7 words and 3 bubbles have passed in 10 ticks. -/
theorem witness_CountsAccountForCyclesKept :
    PipelineInv midRun ∧ CountsAccountForCycles midRun ⟨7, 0, 0⟩ ∧
    step midRun = .next (after midRun) ∧ isHalt midRun.memwb.instr = false :=
  ⟨midRun_pipelineInv, ⟨by decide, by decide⟩, midRun_ticks.2.1, by decide⟩

/-- The clause at a HALT: 6 words, 3 bubbles and the HALT have passed in 10 ticks. -/
theorem witness_CountsAccountForCyclesKept_halt :
    CountsAccountForCycles { midRun with memwb := ⟨encode (.halt 0 0 0), 0⟩ } ⟨6, 0, 0⟩ ∧
    isHalt (encode (.halt 0 0 0)) = true ∧
    PipelineInv { midRun with memwb := ⟨encode (.halt 0 0 0), 0⟩ } :=
  ⟨⟨by decide, by decide⟩, by decide,
    { ifid_live := by decide
      ifid_bubble := by decide
      idex_live := by decide
      idex_bubble := by decide
      exmem_live := by decide
      exmem_bubble := by decide
      exmem_stall := by decide
      wbend_written := by decide
      idex_readRegA := by decide
      idex_readRegB := by decide
      no_load_use := by decide
      exmem_result := by decide
      exmem_stored := by decide }⟩

end Sys2Proof.Tests
end

section
/-! SUPPORT. What one step can do, as one inversion lemma: `step_outcome`. Every invariant below is
derived from it, and no proof splits `exec` again. -/

namespace Sys2Proof.Machine

/-- The decoder's answer names the word: encoding it gives the word back. -/
theorem encode_of_instrOf {w : Word} {i : Instr} (h : instrOf w = some i) : encode i = w := by
  obtain ⟨j, hj, hw⟩ | ⟨-, he⟩ := decode_cases w
  · simp only [instrOf, hj, Option.some.injEq] at h
    exact h ▸ hw
  · simp [instrOf, he] at h

/-- What the Memory stage answers for an instruction that raises nothing there (R117): the write data
for MEMWB and the data store it leaves. -/
inductive MemoryAnswers (s : State) : Instr → Word → Store → Prop
  | add {rs rt : Reg} {rd : Half} (legal : rd.toNat ≤ 7) :
      MemoryAnswers s (.add rs rt rd) s.exmem.aluResult s.dmem
  | nor {rs rt : Reg} {rd : Half} (legal : rd.toNat ≤ 7) :
      MemoryAnswers s (.nor rs rt rd) s.exmem.aluResult s.dmem
  | lw {rs rt : Reg} {off : Half} (valid : s.exmem.aluResult.toNat < 65536) :
      MemoryAnswers s (.lw rs rt off) (s.dmem.read s.exmem.aluResult.toNat) s.dmem
  | sw {rs rt : Reg} {off : Half} (valid : s.exmem.aluResult.toNat < 65536) :
      MemoryAnswers s (.sw rs rt off) 0
        (s.dmem.write s.exmem.aluResult.toNat s.exmem.readRegB)
  | beq {rs rt : Reg} {off : Half} : MemoryAnswers s (.beq rs rt off) 0 s.dmem
  | jalr {a b : Reg} {c : Half} : MemoryAnswers s (.jalr a b c) 0 s.dmem
  | halt {a b : Reg} {c : Half} : MemoryAnswers s (.halt a b c) 0 s.dmem
  | noop {a b : Reg} {c : Half} : MemoryAnswers s (.noop a b c) 0 s.dmem

/-- The three ways a tick that commits can complete its front end, over the back end's state `n`: flush,
stall or advance (R103, R116). -/
inductive FrontEnd (s n : State) : State → Prop
  | flush (taken : branchTaken s = true) : FrontEnd s n (flushFront s n)
  | stall (notTaken : branchTaken s = false)
      (hazardous : hazard s.ifid.instr s.idex.instr = true) : FrontEnd s n (stallFront s n)
  | advance (notTaken : branchTaken s = false)
      (hazardFree : hazard s.ifid.instr s.idex.instr = false) (fetchable : s.pc.toNat < 65536) :
      FrontEnd s n (advanceFront s n (s.imem.read s.pc.toNat))

/-- Everything one step can do: nothing (R225), halt (R101), take one of the three faults of a tick
(R206), or commit the instruction in EXMEM (R103). -/
inductive StepOutcome (s : State) : State → Prop
  | terminal (stopped : s.status ≠ .running) : StepOutcome s s
  | halts (running : s.status = .running) (halt : isHalt s.memwb.instr = true) :
      StepOutcome s (enterHalted s)
  | faults (runs : RunsTick s) (f : Fault) (tickFault : ∀ n, f ≠ .loadError n) :
      StepOutcome s (raiseFault s f)
  | commits {i : Instr} {v : Word} {m : Store} {t : State} (runs : RunsTick s)
      (decoded : instrOf s.exmem.instr = some i) (answer : MemoryAnswers s i v m)
      (front : FrontEnd s (backEnd s s.exmem.instr v m) t) : StepOutcome s t

/-- Once the Memory stage has answered, the end of the tick commits or raises the fetch fault. -/
theorem finishTick_outcome {s : State} {i : Instr} {v : Word} {m : Store} {taken : Bool}
    (runs : RunsTick s) (decoded : instrOf s.exmem.instr = some i)
    (answer : MemoryAnswers s i v m) (htaken : branchTaken s = taken) :
    StepOutcome s (finishTick s (encode i) v m taken) := by
  rw [encode_of_instrOf decoded]
  subst htaken
  obtain ⟨ht, e⟩ | ⟨ht, hz, e⟩ | ⟨ht, hz, hpc, e⟩ | ⟨-, -, -, e⟩ :=
    finishTick_cases s s.exmem.instr v m (branchTaken s) <;> rw [e]
  · exact .commits runs decoded answer (.flush ht)
  · exact .commits runs decoded answer (.stall ht hz)
  · exact .commits runs decoded answer (.advance ht hz hpc)
  · exact .faults runs _ nofun

/-- Only a BEQ in EXMEM takes a branch (R114). -/
theorem branchTaken_eq_false {s : State} {i : Instr} (decoded : instrOf s.exmem.instr = some i)
    (notBeq : ∀ a b c, i ≠ .beq a b c) : branchTaken s = false := by
  unfold branchTaken isBeq
  rw [decoded]
  split <;> simp_all

theorem branchTaken_of_beq {s : State} {rs rt : Reg} {off : Half}
    (decoded : instrOf s.exmem.instr = some (.beq rs rt off)) :
    branchTaken s = resultIsZero s.exmem.aluResult := by
  simp [branchTaken, isBeq, decoded]

/-- ADD and NOR share their Memory stage. -/
theorem aluTick_outcome {s : State} {i : Instr} {rd : Half} (runs : RunsTick s)
    (decoded : instrOf s.exmem.instr = some i) (notBeq : ∀ a b c, i ≠ .beq a b c)
    (answer : rd.toNat ≤ 7 → MemoryAnswers s i s.exmem.aluResult s.dmem) :
    StepOutcome s (aluTick s (encode i) rd) := by
  obtain ⟨hrd, e⟩ | ⟨-, e⟩ := aluTick_cases s (encode i) rd <;> rw [e]
  · exact finishTick_outcome runs decoded (answer hrd) (branchTaken_eq_false decoded notBeq)
  · exact .faults runs _ nofun

/-- JALR, HALT and NOOP share their Memory stage. -/
theorem plainTick_outcome {s : State} {i : Instr} (runs : RunsTick s)
    (decoded : instrOf s.exmem.instr = some i) (notBeq : ∀ a b c, i ≠ .beq a b c)
    (answer : MemoryAnswers s i 0 s.dmem) : StepOutcome s (plainTick s (encode i)) :=
  finishTick_outcome runs decoded answer (branchTaken_eq_false decoded notBeq)

/-- The dispatch by instruction, each arm through the lemma of its Memory stage. -/
theorem exec_outcome {s t : State} {i : Instr} (runs : RunsTick s)
    (decoded : instrOf s.exmem.instr = some i) (h : exec i s = .next t) : StepOutcome s t := by
  cases i <;> cases h
  case add => exact aluTick_outcome runs decoded nofun .add
  case nor => exact aluTick_outcome runs decoded nofun .nor
  case lw rs rt off =>
    obtain ⟨ha, e⟩ | ⟨-, e⟩ := loadTick_cases s (encode (.lw rs rt off)) <;> rw [e]
    · exact finishTick_outcome runs decoded (.lw ha) (branchTaken_eq_false decoded nofun)
    · exact .faults runs _ nofun
  case sw rs rt off =>
    obtain ⟨ha, e⟩ | ⟨-, e⟩ := storeTick_cases s (encode (.sw rs rt off)) <;> rw [e]
    · exact finishTick_outcome runs decoded (.sw ha) (branchTaken_eq_false decoded nofun)
    · exact .faults runs _ nofun
  case beq => exact finishTick_outcome runs decoded .beq (branchTaken_of_beq decoded)
  case jalr => exact plainTick_outcome runs decoded nofun .jalr
  case halt => exact plainTick_outcome runs decoded nofun .halt
  case noop => exact plainTick_outcome runs decoded nofun .noop

/-- The inversion lemma of `step`. -/
theorem step_outcome {s t : State} (h : step s = .next t) : StepOutcome s t := by
  obtain ⟨hs, e⟩ | ⟨hs, hh, e⟩ | ⟨hs, hh, -, e⟩ | ⟨hs, hh, i, hi, e⟩ := step_cases s
  · obtain rfl := Host.Outcome.next.inj (e.symm.trans h)
    exact .terminal hs
  · obtain rfl := Host.Outcome.next.inj (e.symm.trans h)
    exact .halts hs hh
  · obtain rfl := Host.Outcome.next.inj (e.symm.trans h)
    exact .faults ⟨hs, hh⟩ _ nofun
  · exact exec_outcome ⟨hs, hh⟩ hi (e.symm.trans h)

/-! What every front end leaves to the back end, field by field. -/

section FrontEnd

variable {s n t : State} (h : FrontEnd s n t)
include h

theorem FrontEnd.imem_eq : t.imem = n.imem := by cases h <;> rfl
theorem FrontEnd.dmem_eq : t.dmem = n.dmem := by cases h <;> rfl
theorem FrontEnd.reg_eq : t.reg = n.reg := by cases h <;> rfl
theorem FrontEnd.cycles_eq : t.cycles = n.cycles := by cases h <;> rfl
theorem FrontEnd.memwb_eq : t.memwb = n.memwb := by cases h <;> rfl
theorem FrontEnd.wbend_eq : t.wbend = n.wbend := by cases h <;> rfl
theorem FrontEnd.status_eq : t.status = n.status := by cases h <;> rfl

/-! What a front end leaves in each of its own latches. -/

theorem FrontEnd.exmem_cases : t.exmem = EXMEM.bubble ∨ t.exmem = executeLatch s := by
  cases h <;> simp

theorem FrontEnd.idex_cases : t.idex = IDEX.bubble ∨ t.idex = decodeLatch s := by
  cases h <;> simp

theorem FrontEnd.ifid_cases : t.ifid = IFID.bubble ∨ t.ifid = s.ifid ∨
    s.pc.toNat < 65536 ∧ t.ifid = fetchLatch s (s.imem.read s.pc.toNat) := by
  cases h <;> simp [*]

theorem FrontEnd.pc_cases : branchTaken s = true ∧ t.pc = s.exmem.branchTarget ∨ t.pc = s.pc ∨
    s.pc.toNat < 65536 ∧ t.pc = s.pc + 1 := by
  cases h <;> simp [*]

end FrontEnd

end Sys2Proof.Machine
end

section
/-! SUPPORT. Facts about bubbles, the Memory stage's answer and Execute's latch that the invariants of
10_state.md use. -/

namespace Sys2Proof.Machine

/-! The readings of `NOOPW` (R67) and of the bubbles made of it (R32). -/

@[simp] theorem instrOf_noopWord : instrOf Config.noopWord = some (.noop 0 0 0) := by decide
@[simp] theorem sext16_f2_noopWord : sext16 (f2 Config.noopWord) = 0 := by decide
@[simp] theorem takesForwardingOf_noopWord : takesForwardingOf Config.noopWord = false := by decide
@[simp] theorem sourcesOf_noopWord : sourcesOf Config.noopWord = [] := by decide
@[simp] theorem destinationOf_noopWord : destinationOf Config.noopWord = none := by decide
@[simp] theorem loadDestinationOf_noopWord : loadDestinationOf Config.noopWord = none := by decide
@[simp] theorem isBeq_noopWord : isBeq Config.noopWord = false := by decide
@[simp] theorem isHalt_noopWord : isHalt Config.noopWord = false := by decide
@[simp] theorem legalWord_noopWord : legalWord Config.noopWord = true := by decide

@[simp] theorem ifid_bubble_instr : IFID.bubble.instr = Config.noopWord := rfl
@[simp] theorem ifid_bubble_pcPlus1 : IFID.bubble.pcPlus1 = 0 := rfl
@[simp] theorem idex_bubble_instr : IDEX.bubble.instr = Config.noopWord := rfl
@[simp] theorem idex_bubble_pcPlus1 : IDEX.bubble.pcPlus1 = 0 := rfl
@[simp] theorem idex_bubble_offset : IDEX.bubble.offset = 0 := rfl
@[simp] theorem exmem_bubble_instr : EXMEM.bubble.instr = Config.noopWord := rfl
@[simp] theorem exmem_bubble_branchTarget : EXMEM.bubble.branchTarget = 0 := rfl
@[simp] theorem exmem_bubble_aluResult : EXMEM.bubble.aluResult = 0 := rfl
@[simp] theorem memwb_bubble_instr : MEMWB.bubble.instr = Config.noopWord := rfl
@[simp] theorem memwb_bubble_writeData : MEMWB.bubble.writeData = 0 := rfl
@[simp] theorem wbend_bubble_instr : WBEND.bubble.instr = Config.noopWord := rfl
@[simp] theorem wbend_bubble_writeData : WBEND.bubble.writeData = 0 := rfl

/-! The latches of a loaded state (R38). -/

@[simp] theorem loaded_pc (i d : Store) : (State.loaded i d).pc = 0 := rfl
@[simp] theorem loaded_reg (i d : Store) : (State.loaded i d).reg = Vector.replicate 8 0 := rfl
@[simp] theorem loaded_cycles (i d : Store) : (State.loaded i d).cycles = 0 := rfl
@[simp] theorem loaded_ifid (i d : Store) : (State.loaded i d).ifid = IFID.bubble := rfl
@[simp] theorem loaded_idex (i d : Store) : (State.loaded i d).idex = IDEX.bubble := rfl
@[simp] theorem loaded_exmem (i d : Store) : (State.loaded i d).exmem = EXMEM.bubble := rfl
@[simp] theorem loaded_memwb (i d : Store) : (State.loaded i d).memwb = MEMWB.bubble := rfl
@[simp] theorem loaded_wbend (i d : Store) : (State.loaded i d).wbend = WBEND.bubble := rfl

/-! What the Memory stage lets through (R117). -/

/-- Only a legal word passes the Memory stage. -/
theorem MemoryAnswers.legal {s : State} {i : Instr} {v : Word} {m : Store}
    (answer : MemoryAnswers s i v m) (decoded : instrOf s.exmem.instr = some i) :
    legalWord s.exmem.instr = true := by
  rw [legalWord, decoded]
  cases answer <;> simp [Instr.wellFormed, *]

/-- The store of a SW keeps the canonical form. -/
theorem MemoryAnswers.dmem_wf {s : State} {i : Instr} {v : Word} {m : Store}
    (answer : MemoryAnswers s i v m) (h : s.dmem.wf Config.dmemWords = true) :
    m.wf Config.dmemWords = true := by
  cases answer
  case sw valid => exact Store.write_wf valid h
  all_goals exact h

/-- The write data of a word that writes no register is the fixed 0 (R37). -/
theorem MemoryAnswers.writeData_eq_zero {s : State} {i : Instr} {v : Word} {m : Store}
    (answer : MemoryAnswers s i v m) (h : destination i = none) : v = 0 := by
  cases answer
  case add | nor | lw => cases h
  all_goals rfl

/-- The ALU result of a word that takes no forwarding is the fixed 0 (R37, R113). -/
theorem aluOf_eq_zero {w : Word} (h : takesForwardingOf w = false) (a b offset : Word) :
    aluOf w a b offset = 0 := by
  unfold aluOf
  unfold takesForwardingOf at h
  cases hw : instrOf w with
  | none => rfl
  | some i =>
    rw [hw] at h
    cases i
    case jalr | halt | noop => rfl
    all_goals cases h

/-- D19: the target of a branch whose own address is in the instruction store. -/
theorem branchTarget_range (off : Half) {p : Word} (hpos : p ≠ 0) (hle : p.toNat ≤ 65536) :
    -32767 ≤ s32 (sext16 off + p) ∧ s32 (sext16 off + p) ≤ 98303 := by
  have hp : p.toInt = p.toNat := BitVec.toInt_eq_toNat_of_lt (by omega)
  have hp0 : p.toNat ≠ 0 := fun h => hpos (BitVec.eq_of_toNat_eq h)
  have ho : (sext16 off).toInt = off.toInt := BitVec.toInt_signExtend_of_le (by omega)
  have hlo := BitVec.le_toInt off
  have hhi := BitVec.toInt_lt (x := off)
  rw [s32, BitVec.toInt_add, ho, hp, Int.bmod_eq_of_le (by omega) (by omega)]
  omega

theorem isBeq_ne_noopWord {w : Word} (h : isBeq w = true) : w ≠ Config.noopWord := by
  rintro rfl
  simp at h

/-- The word after a fetchable address is at most 65536, and it is not 0: no overflow (D19). -/
theorem toNat_succ_of_fetchable {p : Word} (h : p.toNat < 65536) : (p + 1).toNat = p.toNat + 1 := by
  rw [BitVec.toNat_add]
  simp
  omega

end Sys2Proof.Machine
end

section
/-! SUPPORT. Every step keeps the form of a reachable state (O43), and the reset state has it (O44). -/

namespace Sys2Proof.Machine

/-- The tick that commits keeps the form. -/
theorem StateWf.of_commits {s t : State} {i : Instr} {v : Word} {m : Store} (hs : StateWf s)
    (runs : RunsTick s) (decoded : instrOf s.exmem.instr = some i)
    (answer : MemoryAnswers s i v m) (front : FrontEnd s (backEnd s s.exmem.instr v m) t) :
    StateWf t where
  imem := by rw [front.imem_eq]; exact hs.imem
  dmem := by rw [front.dmem_eq]; exact answer.dmem_wf hs.dmem
  memwb_legal := by rw [front.memwb_eq]; exact answer.legal decoded
  wbend_legal := by rw [front.wbend_eq]; exact hs.memwb_legal
  memwb_zero := by
    rw [front.memwb_eq]
    intro hd
    exact answer.writeData_eq_zero (by simpa [destinationOf, decoded] using hd)
  wbend_zero := by rw [front.wbend_eq]; exact hs.memwb_zero
  exmem_zero := by
    obtain h | h := front.exmem_cases <;> rw [h]
    · exact fun _ => rfl
    · exact fun hf => aluOf_eq_zero hf ..
  idex_offset := by
    obtain h | h := front.idex_cases <;> rw [h]
    · exact sext16_f2_noopWord.symm
    · rfl
  ifid_range := by
    obtain h | h | ⟨hpc, h⟩ := front.ifid_cases <;> rw [h]
    · exact Nat.zero_le _
    · exact hs.ifid_range
    · exact (toNat_succ_of_fetchable hpc).trans_le hpc
  idex_range := by
    obtain h | h := front.idex_cases <;> rw [h]
    · exact Nat.zero_le _
    · exact hs.ifid_range
  ifid_zero := by
    obtain h | h | ⟨hpc, h⟩ := front.ifid_cases <;> rw [h]
    · exact fun _ => rfl
    · exact hs.ifid_zero
    · intro hz
      have hz : (s.pc + 1).toNat = 0 := congrArg BitVec.toNat hz
      rw [toNat_succ_of_fetchable hpc] at hz
      omega
  idex_zero := by
    obtain h | h := front.idex_cases <;> rw [h]
    · exact fun _ => rfl
    · exact hs.ifid_zero
  target_range := by
    obtain h | h := front.exmem_cases <;> rw [h] <;> intro hb
    · simp at hb
    · have hlive : s.idex.pcPlus1 ≠ 0 := fun h0 => isBeq_ne_noopWord hb (hs.idex_zero h0)
      simp only [executeLatch, branchTargetOf, hs.idex_offset]
      exact branchTarget_range _ hlive hs.idex_range
  pc_range := by
    obtain ⟨ht, h⟩ | h | ⟨hpc, h⟩ := front.pc_cases <;> rw [h]
    · exact hs.target_range (Bool.and_eq_true_iff.1 ht).1
    · exact hs.pc_range
    · have := toNat_succ_of_fetchable hpc
      rw [s32, BitVec.toInt_eq_toNat_of_lt (by omega)]
      omega
  status := by
    rw [front.status_eq, backEnd_status, runs.1]
    exact nofun

/-- The form speaks of the status only to exclude `LoadError`. -/
theorem StateWf.withStatus {s t : State} (hs : StateWf s) (he : t = { s with status := t.status })
    (ht : ∀ n, t.status ≠ .faulted (.loadError n)) : StateWf t := by
  rw [he]
  exact { hs with status := ht }

theorem stateWf_loaded {i d : Store} (hi : i.wf Config.imemWords = true)
    (hd : d.wf Config.dmemWords = true) : StateWf (State.loaded i d) := by
  constructor <;> simp [hi, hd, s32]

/-- Settles O43: of the four outcomes of a step, only the tick that commits moves more than the status. -/
theorem stateWfKept : Obligations.StateWfKept := by
  intro s t hs h
  cases step_outcome h with
  | terminal _ => exact hs
  | halts _ _ => exact hs.withStatus rfl nofun
  | faults _ f tickFault => exact hs.withStatus rfl fun n hn => tickFault n (Status.faulted.inj hn)
  | commits runs decoded answer front => exact hs.of_commits runs decoded answer front

/-- Settles O44: the form of a loaded state, with both stores empty. -/
theorem stateWfAtReset : Obligations.StateWfAtReset :=
  stateWf_loaded reset_stores_wf.1 reset_stores_wf.2

end Sys2Proof.Machine
end

section
/-! SUPPORT. Forwarding is complete: Execute's operands are the program's register values, and so is the
register file once the tick has committed (R110, R118, R227). -/

namespace Sys2Proof.Machine

/-! ### Words by their instruction -/

/-- The fields of a word are those of the instruction it decodes to (R61, R63). -/
theorem fields_of_instrOf {w : Word} {i : Instr} (h : instrOf w = some i) :
    f0 w = i.field0 ∧ f1 w = i.field1 ∧ f2 w = i.field2 := by
  rw [← encode_of_instrOf h]
  cases i <;> simp [encode, Instr.field0, Instr.field1, Instr.field2]

/-- Every word the hazard unit sees reading a register takes forwarding (R106, R111). -/
theorem takesForwardingOf_of_source {w : Word} {r : Reg} (h : r ∈ sourcesOf w) :
    takesForwardingOf w = true := by
  unfold sourcesOf at h
  unfold takesForwardingOf
  cases hw : instrOf w with
  | none => simp [hw] at h
  | some i => cases i <;> simp_all [sources, takesForwarding]

/-- The ALU reads an operand only where `src` names its register (R106, R113). -/
theorem aluOf_congr {w a b a' b' : Word} (offset : Word) (ha : f0 w ∈ sourcesOf w → a = a')
    (hb : f1 w ∈ sourcesOf w → b = b') : aluOf w a b offset = aluOf w a' b' offset := by
  unfold sourcesOf at ha hb
  unfold aluOf
  cases hw : instrOf w with
  | none => rfl
  | some i =>
    obtain ⟨h0, h1, -⟩ := fields_of_instrOf hw
    rw [hw, h0] at ha
    rw [hw, h1] at hb
    cases i <;> simp_all [sources, alu, Instr.field0, Instr.field1]

/-- Where a word loads no register `r`, writing `r` is forwarding it from EXMEM (R109). -/
theorem namesReg_destinationOf {w : Word} {r : Reg} (h : loadDestinationOf w ≠ some r) :
    namesReg (destinationOf w) r = namesReg (aluDestinationOf w) r := by
  unfold loadDestinationOf at h
  unfold destinationOf aluDestinationOf
  cases hw : instrOf w with
  | none => rfl
  | some i =>
    cases i
    case lw rs rt off =>
      have hne : rt ≠ r := by simpa [hw, loadDestination] using h
      simpa [destination, aluDestination] using hne
    all_goals rfl

/-- The hazard unit's condition (R107). -/
theorem hazard_iff {i d : Word} :
    hazard i d = true ↔ ∃ r ∈ sourcesOf i, loadDestinationOf d = some r := by
  unfold hazard
  cases loadDestinationOf d <;> simp

/-! ### Operands and registers -/

/-- R227 for one source register: the forwarding network supplies the program's value. -/
theorem PipelineInv.forward_eq_programReg {s : State} (hs : PipelineInv s) {r : Reg} {v0 : Word}
    (hr : r ∈ sourcesOf s.idex.instr)
    (hv : namesReg (destinationOf s.wbend.instr) r = false → v0 = readReg s.reg r) :
    forward s r v0 = programReg s r := by
  have hload := hs.no_load_use r hr
  have hwb : (if namesReg (destinationOf s.wbend.instr) r then s.wbend.writeData else v0) =
      readReg s.reg r := by
    split
    · exact (hs.wbend_written r ‹_›).symm
    · exact hv (Bool.eq_false_iff.2 ‹_›)
  rw [forward, programReg, if_neg hload, namesReg_destinationOf hload, hwb]

theorem PipelineInv.operandA_eq_programReg {s : State} (hs : PipelineInv s)
    (hr : f0 s.idex.instr ∈ sourcesOf s.idex.instr) :
    operandA s = programReg s (f0 s.idex.instr) := by
  have ht := takesForwardingOf_of_source hr
  rw [operandA, if_pos ht]
  exact hs.forward_eq_programReg hr (hs.idex_readRegA ht)

theorem PipelineInv.operandB_eq_programReg {s : State} (hs : PipelineInv s)
    (hr : f1 s.idex.instr ∈ sourcesOf s.idex.instr) :
    operandB s = programReg s (f1 s.idex.instr) := by
  have ht := takesForwardingOf_of_source hr
  rw [operandB, if_pos ht]
  exact hs.forward_eq_programReg hr (hs.idex_readRegB ht)

section Commits

variable {s t : State} {i : Instr} {v : Word} {m : Store}

/-- The write data of a word that writes `r` is the value the program gives `r`. -/
theorem MemoryAnswers.writeData_eq (answer : MemoryAnswers s i v m) {r : Reg}
    (h : namesReg (destination i) r = true) :
    v = if loadDestination i = some r then s.dmem.read (addressIndex s.exmem.aluResult)
      else s.exmem.aluResult := by
  cases answer
  case add | nor => rfl
  case lw rs rt off valid =>
    have hr : rt = r := by simpa [destination] using h
    rw [loadDestination, if_pos (congrArg some hr), addressIndex_of_valid valid]
  all_goals cases h

/-- The register file once this tick's instruction has been written back is the program's (R226). -/
theorem readReg_writebackRegs_of_commits (decoded : instrOf s.exmem.instr = some i)
    (answer : MemoryAnswers s i v m) (front : FrontEnd s (backEnd s s.exmem.instr v m) t) (r : Reg) :
    readReg (writebackRegs t) r = programReg s r := by
  rw [writebackRegs, front.reg_eq, front.memwb_eq]
  simp only [backEnd_reg, backEnd_memwb, writebackRegs, readReg_writeReg, programReg]
  split
  · rename_i hd
    simp only [destinationOf, loadDestinationOf, decoded, Option.bind_some] at hd ⊢
    exact answer.writeData_eq hd
  · rfl

/-- What WBEND holds after a tick is in the register file (R31, R118). -/
theorem wbend_written_of_commits (front : FrontEnd s (backEnd s s.exmem.instr v m) t) {r : Reg}
    (h : namesReg (destinationOf t.wbend.instr) r = true) : readReg t.reg r = t.wbend.writeData := by
  rw [front.wbend_eq] at h ⊢
  rw [front.reg_eq, backEnd_reg, writebackRegs, readReg_writeReg]
  exact if_pos h

/-- A register that the tick does not write back keeps its value (R118). -/
theorem readReg_of_not_written (front : FrontEnd s (backEnd s s.exmem.instr v m) t) {r : Reg}
    (h : namesReg (destinationOf t.wbend.instr) r = false) : readReg t.reg r = readReg s.reg r := by
  rw [front.wbend_eq] at h
  rw [front.reg_eq, backEnd_reg, writebackRegs, readReg_writeReg]
  exact if_neg (Bool.eq_false_iff.1 h)

end Commits

end Sys2Proof.Machine
end

section
/-! SUPPORT. Every step keeps the pipeline invariant (O46). -/

namespace Sys2Proof.Machine

theorem ifidLive_iff {s : State} : ifidLive s = true ↔ s.ifid.pcPlus1 ≠ 0 := by
  rw [ifidLive, decide_eq_true_eq]

theorem ifidLive_of_bubble {s : State} (h : s.ifid = IFID.bubble) : ifidLive s = false := by
  simp [ifidLive, h]

theorem idexLive_of_bubble {s : State} (h : s.idex = IDEX.bubble) : idexLive s = false := by
  simp [idexLive, h]

theorem exmemLive_of_bubble {s : State} (h : s.exmem = EXMEM.bubble) : exmemLive s = false := by
  simp [exmemLive, exmemPcPlus1, h]

/-- The invariant is met by bubbles in the three front latches, whatever is behind them. -/
theorem pipelineInv_of_bubbles {s : State} (hifid : s.ifid = IFID.bubble)
    (hidex : s.idex = IDEX.bubble) (hexmem : s.exmem = EXMEM.bubble)
    (hwbend : ∀ r, namesReg (destinationOf s.wbend.instr) r = true →
      readReg s.reg r = s.wbend.writeData) : PipelineInv s := by
  have h1 := ifidLive_of_bubble hifid
  have h2 := idexLive_of_bubble hidex
  have h3 := exmemLive_of_bubble hexmem
  constructor <;> simp_all

/-- No field of the invariant speaks of the status. -/
theorem PipelineInv.withStatus {s : State} (hs : PipelineInv s) (x : Status) :
    PipelineInv { s with status := x } := { hs with }

section Execute

variable {s t : State} (hs : PipelineInv s)
include hs

/-- Live or a bubble, IDEX holds the offset of its word. -/
theorem PipelineInv.idex_offset_eq : s.idex.offset = sext16 (f2 s.idex.instr) := by
  cases hl : idexLive s
  · obtain ⟨hi, ho⟩ := hs.idex_bubble hl
    rw [hi, ho, sext16_f2_noopWord]
  · obtain ⟨-, -, ho, -⟩ := hs.idex_live hl
    exact ho

/-- The word Execute hands on keeps its `pcPlus1` (R112). -/
theorem PipelineInv.exmemPcPlus1_of_executes (hx : t.exmem = executeLatch s) :
    exmemPcPlus1 t = s.idex.pcPlus1 := by
  rw [exmemPcPlus1, hx, executeLatch, branchTargetOf, hs.idex_offset_eq, BitVec.add_comm,
    BitVec.add_sub_cancel]

theorem PipelineInv.exmemLive_of_executes (hx : t.exmem = executeLatch s) :
    exmemLive t = idexLive s := by
  rw [exmemLive, idexLive, hs.exmemPcPlus1_of_executes hx]

theorem PipelineInv.exmem_bubble_of_executes (hx : t.exmem = executeLatch s)
    (h : exmemLive t = false) : t.exmem.instr = Config.noopWord ∧ t.exmem.aluResult = 0 := by
  rw [hs.exmemLive_of_executes hx] at h
  obtain ⟨hi, -⟩ := hs.idex_bubble h
  rw [hx]
  exact ⟨hi, aluOf_eq_zero (by rw [hi, takesForwardingOf_noopWord]) ..⟩

/-- Execute's result is the one for the program's register values. -/
theorem PipelineInv.exmem_result_of_executes (hx : t.exmem = executeLatch s)
    (hr : ∀ r, readReg (writebackRegs t) r = programReg s r) :
    t.exmem.aluResult =
      aluOf t.exmem.instr (readReg (writebackRegs t) (f0 t.exmem.instr))
        (readReg (writebackRegs t) (f1 t.exmem.instr)) (sext16 (f2 t.exmem.instr)) := by
  rw [hr, hr, hx]
  simp only [executeLatch, hs.idex_offset_eq]
  exact aluOf_congr _ hs.operandA_eq_programReg hs.operandB_eq_programReg

theorem PipelineInv.exmem_stored_of_executes (hx : t.exmem = executeLatch s)
    (hr : ∀ r, readReg (writebackRegs t) r = programReg s r)
    (h : f1 t.exmem.instr ∈ sourcesOf t.exmem.instr) :
    t.exmem.readRegB = readReg (writebackRegs t) (f1 t.exmem.instr) := by
  rw [hr]
  rw [hx] at h ⊢
  exact hs.operandB_eq_programReg h

end Execute

/-- A stall holds IFID, and the load that caused it is the live word in IDEX (R108). -/
theorem PipelineInv.of_stalls {s n : State} (hs : PipelineInv s)
    (hz : hazard s.ifid.instr s.idex.instr = true) (himem : n.imem = s.imem)
    (hr : ∀ r, readReg (writebackRegs (stallFront s n)) r = programReg s r)
    (hwbend : ∀ r, namesReg (destinationOf n.wbend.instr) r = true →
      readReg n.reg r = n.wbend.writeData) : PipelineInv (stallFront s n) := by
  obtain ⟨ld, -, hld⟩ := hazard_iff.1 hz
  have hlive : idexLive s = true := by
    by_contra hb
    obtain ⟨hi, -⟩ := hs.idex_bubble (Bool.eq_false_iff.2 hb)
    simp [hi] at hld
  obtain ⟨hle, hword, -, hifid, hnext⟩ := hs.idex_live hlive
  have hx : (stallFront s n).exmem = executeLatch s := rfl
  have hbubble : idexLive (stallFront s n) = false := idexLive_of_bubble rfl
  exact
    { ifid_live := by rw [stallFront_imem, himem]; exact hs.ifid_live
      ifid_bubble := hs.ifid_bubble
      idex_live := by simp [hbubble]
      idex_bubble := by simp
      exmem_live := by
        intro _
        rw [hs.exmemPcPlus1_of_executes hx, hbubble, stallFront_imem, himem]
        exact ⟨hle, hword, hifid, hnext⟩
      exmem_bubble := hs.exmem_bubble_of_executes hx
      exmem_stall := by
        intro _ _
        simp [executeLatch, hld]
      wbend_written := hwbend
      idex_readRegA := by simp
      idex_readRegB := by simp
      no_load_use := by simp
      exmem_result := fun _ => hs.exmem_result_of_executes hx hr
      exmem_stored := hs.exmem_stored_of_executes hx hr }

/-- A tick that advances fetches the word at `pc`, and every live word moves one latch on (R104, R105,
R112). -/
theorem PipelineInv.of_advances {s n : State} (hs : PipelineInv s)
    (hz : hazard s.ifid.instr s.idex.instr = false) (hpc : s.pc.toNat < 65536)
    (himem : n.imem = s.imem)
    (hr : ∀ r, readReg (writebackRegs (advanceFront s n (s.imem.read s.pc.toNat))) r =
      programReg s r)
    (hwbend : ∀ r, namesReg (destinationOf n.wbend.instr) r = true →
      readReg n.reg r = n.wbend.writeData)
    (hkeep : ∀ r, namesReg (destinationOf n.wbend.instr) r = false →
      readReg s.reg r = readReg n.reg r) :
    PipelineInv (advanceFront s n (s.imem.read s.pc.toNat)) := by
  have hx : (advanceFront s n (s.imem.read s.pc.toNat)).exmem = executeLatch s := rfl
  have hsucc := toNat_succ_of_fetchable hpc
  have hlive : ifidLive (advanceFront s n (s.imem.read s.pc.toNat)) = true := by
    refine ifidLive_iff.2 fun h0 => ?_
    have h0 : (s.pc + 1).toNat = 0 := congrArg BitVec.toNat h0
    omega
  exact
    { ifid_live := by
        intro _
        refine ⟨hsucc.trans_le hpc, ?_, rfl⟩
        rw [advanceFront_imem, himem, advanceFront_ifid, fetchLatch, hsucc, Nat.add_sub_cancel]
      ifid_bubble := by simp [hlive]
      idex_live := by
        intro hl
        obtain ⟨hle, hword, hnext⟩ := hs.ifid_live hl
        rw [advanceFront_imem, himem]
        exact ⟨hle, hword, rfl, hlive, congrArg (· + 1) hnext⟩
      idex_bubble := by
        intro hl
        simp [decodeLatch, hs.ifid_bubble hl]
      exmem_live := by
        intro hl
        rw [hs.exmemLive_of_executes hx] at hl
        obtain ⟨hle, hword, -, hifid, hnext⟩ := hs.idex_live hl
        have hmoved : idexLive (advanceFront s n (s.imem.read s.pc.toNat)) = true := hifid
        rw [hs.exmemPcPlus1_of_executes hx, hmoved, advanceFront_imem, himem]
        exact ⟨hle, hword, hlive, hnext⟩
      exmem_bubble := hs.exmem_bubble_of_executes hx
      exmem_stall := by
        intro hl hb
        rw [hs.exmemLive_of_executes hx] at hl
        obtain ⟨-, -, -, hifid, -⟩ := hs.idex_live hl
        exact absurd (hifid.symm.trans hb) (by decide)
      wbend_written := hwbend
      idex_readRegA := fun _ h => hkeep _ h
      idex_readRegB := fun _ h => hkeep _ h
      no_load_use := fun r hr hld => Bool.eq_false_iff.1 hz (hazard_iff.2 ⟨r, hr, hld⟩)
      exmem_result := fun _ => hs.exmem_result_of_executes hx hr
      exmem_stored := hs.exmem_stored_of_executes hx hr }

/-- The tick that commits keeps the invariant, whichever front end it has. -/
theorem PipelineInv.of_commits {s t : State} {i : Instr} {v : Word} {m : Store}
    (hs : PipelineInv s) (decoded : instrOf s.exmem.instr = some i)
    (answer : MemoryAnswers s i v m) (front : FrontEnd s (backEnd s s.exmem.instr v m) t) :
    PipelineInv t := by
  have hr := readReg_writebackRegs_of_commits decoded answer front
  have hwbend := fun r => wbend_written_of_commits front (r := r)
  have hkeep := fun r h => (readReg_of_not_written front (r := r) h).symm
  cases front with
  | flush _ => exact pipelineInv_of_bubbles rfl rfl rfl hwbend
  | stall _ hz => exact hs.of_stalls hz rfl hr hwbend
  | advance _ hz hpc => exact hs.of_advances hz hpc rfl hr hwbend hkeep

theorem pipelineInv_loaded (i d : Store) : PipelineInv (State.loaded i d) :=
  pipelineInv_of_bubbles rfl rfl rfl (by simp)

/-- Settles O46: of the four outcomes of a step, only the tick that commits moves a latch. -/
theorem pipelineInvKept : Obligations.PipelineInvKept := by
  intro s t hs h
  cases step_outcome h with
  | terminal _ => exact hs
  | halts _ _ => exact hs.withStatus _
  | faults _ f _ => exact hs.withStatus _
  | commits _ decoded answer front => exact hs.of_commits decoded answer front

end Sys2Proof.Machine
end

section
/-! SUPPORT. The stores: the canonical form decides equality (O42), only a SW changes the data store (O34),
and no run changes the instruction store (O33). -/

namespace Sys2Proof.Machine

theorem cellsWf_cons {size lo a : Nat} {v : Word} {cs : List (Nat × Word)} :
    cellsWf size lo ((a, v) :: cs) = true ↔
      lo ≤ a ∧ a < size ∧ v ≠ Config.unlistedWord ∧ cellsWf size (a + 1) cs = true := by
  simp only [cellsWf, Bool.and_eq_true, decide_eq_true_eq, and_assoc]

/-- A canonical list whose every address reads as unlisted is empty. -/
theorem cells_eq_nil {size lo : Nat} {cs : List (Nat × Word)} (hc : cellsWf size lo cs = true)
    (h : ∀ a, lo ≤ a → a < size → readCells a cs = Config.unlistedWord) : cs = [] := by
  cases cs with
  | nil => rfl
  | cons c cs =>
    obtain ⟨a, v⟩ := c
    obtain ⟨hlo, ha, hv, -⟩ := cellsWf_cons.1 hc
    exact absurd (by simpa [readCells] using h a hlo ha) hv

/-- The first cell of a canonical list is not below that of another with the same words, since it would
be unlisted there. -/
theorem first_cell_le {size lo a b : Nat} {u v : Word} {cs ds : List (Nat × Word)}
    (hc : cellsWf size lo ((a, v) :: cs) = true) (hd : cellsWf size lo ((b, u) :: ds) = true)
    (h : ∀ x, lo ≤ x → x < size → readCells x ((a, v) :: cs) = readCells x ((b, u) :: ds)) :
    b ≤ a := by
  obtain ⟨hlo, ha, hv, -⟩ := cellsWf_cons.1 hc
  obtain ⟨-, hb, hu, hds⟩ := cellsWf_cons.1 hd
  by_contra hlt
  have hbelow : readCells a ((b, u) :: ds) = Config.unlistedWord :=
    readCells_below (cellsWf_cons.2 ⟨Nat.le_refl b, hb, hu, hds⟩) (by omega)
  have hread := h a hlo ha
  rw [hbelow, readCells, if_pos rfl] at hread
  exact hv hread

/-- Canonical cell lists that read the same from their lower bound on are the same list. -/
theorem cells_eq_of_readCells_eq {size lo : Nat} {cs ds : List (Nat × Word)}
    (hc : cellsWf size lo cs = true) (hd : cellsWf size lo ds = true)
    (h : ∀ a, lo ≤ a → a < size → readCells a cs = readCells a ds) : cs = ds := by
  induction cs generalizing lo ds with
  | nil => exact (cells_eq_nil hd fun a hlo ha => (h a hlo ha).symm).symm
  | cons c cs ih =>
    obtain ⟨a, v⟩ := c
    cases ds with
    | nil => exact cells_eq_nil hc h
    | cons d ds =>
      obtain ⟨b, u⟩ := d
      obtain rfl : a = b := Nat.le_antisymm
        (first_cell_le hd hc fun x hlo hx => (h x hlo hx).symm) (first_cell_le hc hd h)
      obtain ⟨hlo, ha, -, hcs⟩ := cellsWf_cons.1 hc
      obtain ⟨-, -, -, hds⟩ := cellsWf_cons.1 hd
      have huv : v = u := by simpa [readCells] using h a hlo ha
      have hrest : cs = ds := ih hcs hds fun x hx hsize => by
        simpa [readCells, show x ≠ a by omega] using h x (by omega) hsize
      rw [huv, hrest]

/-- Settles O42: the cells of the two stores agree one by one. -/
theorem canonicalStoresAreEqual : Obligations.CanonicalStoresAreEqual := by
  rintro size ⟨cs⟩ ⟨ds⟩ hm hn h
  exact congrArg Store.mk (cells_eq_of_readCells_eq hm hn fun a _ ha => h a ha)

/-- A word of the data store changes only under a SW in the Memory stage, at its address (R48, R151). -/
theorem MemoryAnswers.dmem_changed {s : State} {i : Instr} {v : Word} {m : Store}
    (answer : MemoryAnswers s i v m) (hwf : s.dmem.wf Config.dmemWords = true) {x : Nat}
    (hx : m.read x ≠ s.dmem.read x) :
    (∃ a b c, i = .sw a b c) ∧ x = s.exmem.aluResult.toNat ∧ m.read x = s.exmem.readRegB := by
  cases answer
  case sw rs rt off _ =>
    rw [Store.read_write _ _ _ hwf] at hx ⊢
    split at hx
    · rename_i hxa
      exact ⟨⟨rs, rt, off, rfl⟩, hxa, if_pos hxa⟩
    · exact absurd rfl hx
  all_goals exact absurd rfl hx

/-- Settles O34: of a step's outcomes, only the tick that commits touches the data store. -/
theorem onlySwChangesDataStore : Obligations.OnlySwChangesDataStore := by
  intro s t hwf h x hx
  cases step_outcome h with
  | terminal _ => exact absurd rfl hx
  | halts _ _ => exact absurd rfl hx
  | faults _ _ _ => exact absurd rfl hx
  | commits _ decoded answer front =>
    rw [front.dmem_eq, backEnd_dmem] at hx ⊢
    obtain ⟨⟨a, b, c, rfl⟩, hxa, hval⟩ := answer.dmem_changed hwf hx
    exact ⟨⟨a, b, c, (encode_of_instrOf decoded).symm⟩, hxa, hval⟩

/-- No outcome of a step writes the instruction store (R24). -/
theorem step_imem_eq {s t : State} (h : step s = .next t) : t.imem = s.imem := by
  cases step_outcome h with
  | terminal _ => rfl
  | halts _ _ => rfl
  | faults _ _ _ => rfl
  | commits _ _ _ front => rw [front.imem_eq, backEnd_imem]

/-- A run of `n + 1` steps that answers a state is a step and a run of `n`. -/
theorem run_succ_eq_next {n : Nat} {s t : State} (h : core.run (n + 1) s = .next t) :
    ∃ u, step s = .next u ∧ core.run n u = .next t := by
  simp only [Host.Core.run] at h
  cases hu : step s with
  | next u =>
    rw [show core.step s = .next u from hu] at h
    exact ⟨u, rfl, h⟩
  | fault f =>
    rw [show core.step s = .fault f from hu] at h
    cases h
  | refused r =>
    rw [show core.step s = .refused r from hu] at h
    cases h

/-- Settles O33, by induction on the number of steps. -/
theorem instructionStoreNeverChanges : Obligations.InstructionStoreNeverChanges := by
  intro n
  induction n with
  | zero =>
    intro s t h
    rw [← Host.Outcome.next.inj h]
  | succ n ih =>
    intro s t h
    obtain ⟨u, hstep, hrun⟩ := run_succ_eq_next h
    rw [ih u t hrun, step_imem_eq hstep]

end Sys2Proof.Machine
end

section
/-! SUPPORT. The load operation (R220): which images it accepts, the state it leaves, and the invariants
that start there (O5, O7, O45, O47, O53). -/

namespace Sys2Proof.Machine

theorem imageValueValid_iff (v : Int) : imageValueValid v = true ↔ -2 ^ 31 ≤ v ∧ v < 2 ^ 31 :=
  decide_eq_true_iff

/-- The images with no bad word: those that fit in the store with every value in range (R220). -/
theorem badImageWord_eq_none {a : Nat} {img : List Int} (ha : a ≤ 65536) :
    badImageWord a img = none ↔
      a + img.length ≤ 65536 ∧ ∀ v ∈ img, -2 ^ 31 ≤ v ∧ v < 2 ^ 31 := by
  induction img generalizing a with
  | nil => simpa [badImageWord] using ha
  | cons v rest ih =>
    simp only [badImageWord, imageValueValid_iff, List.length_cons, List.forall_mem_cons]
    split
    · rename_i hv
      rw [ih hv.1]
      constructor
      · exact fun ⟨hlen, hrest⟩ => ⟨by omega, hv.2, hrest⟩
      · exact fun ⟨hlen, _, hrest⟩ => ⟨by omega, hrest⟩
    · rename_i hv
      refine iff_of_false nofun fun ⟨hlen, hrange, _⟩ => hv ⟨?_, hrange⟩
      show a < 65536
      omega

/-- When `load` answers a state, and which. -/
theorem load_eq_next {unloaded : Nat → Word} {img : List Int} {s : State} :
    load unloaded img = .next s ↔
      (img.length ≤ 65536 ∧ ∀ v ∈ img, -2 ^ 31 ≤ v ∧ v < 2 ^ 31) ∧
      s = State.loaded (storeOfWords (imageContents unloaded img))
        (storeOfWords (imageContents unloaded img)) := by
  have hnone := badImageWord_eq_none (img := img) (Nat.zero_le 65536)
  rw [Nat.zero_add] at hnone
  rw [← hnone, load]
  cases badImageWord 0 img with
  | none => simp [eq_comm]
  | some a => simp

theorem imageContents_length (unloaded : Nat → Word) {img : List Int} (h : img.length ≤ 65536) :
    (imageContents unloaded img).length = 65536 := by
  simp only [imageContents, List.length_append, List.length_map, List.length_range']
  exact Nat.add_sub_cancel' h

/-- Below the image's length the loaded store holds the image (R38). -/
theorem imageStore_read_image (unloaded : Nat → Word) {img : List Int} {a : Nat}
    (h : a < img.length) :
    (storeOfWords (imageContents unloaded img)).read a = BitVec.ofInt 32 img[a] := by
  rw [storeOfWords_read, imageContents, List.getD_append _ _ _ _ (by simpa using h)]
  simp [h]

/-- From there to the end it holds `UNLOADED` (R38). -/
theorem imageStore_read_unloaded (unloaded : Nat → Word) {img : List Int} {a : Nat}
    (h : img.length ≤ a) (ha : a < 65536) :
    (storeOfWords (imageContents unloaded img)).read a = unloaded a := by
  have hin : a - img.length < Config.imemWords - img.length := Nat.sub_lt_sub_right h ha
  rw [storeOfWords_read, imageContents, List.getD_append_right _ _ _ _ (by simpa using h)]
  simp [List.getElem?_range' hin, Nat.add_sub_cancel' h]

/-- Settles O5: what `load` answers, and what its store reads below and above the image's length. -/
theorem loadEstablishesResetValues : Obligations.LoadEstablishesResetValues := by
  intro unloaded img hlen hrange
  refine ⟨_, load_eq_next.2 ⟨⟨hlen, hrange⟩, rfl⟩,
    rfl, ?_, rfl, ?_, ?_, rfl, rfl, rfl, rfl, rfl, rfl⟩
  · intro r
    simp [readReg]
  · intro a ha
    exact ⟨imageStore_read_image unloaded ha, imageStore_read_image unloaded ha⟩
  · intro a hlo hhi
    exact ⟨imageStore_read_unloaded unloaded hlo hhi, imageStore_read_unloaded unloaded hlo hhi⟩

/-- Settles O45: a loaded store has exactly its capacity of words, so it is canonical. -/
theorem stateWfAfterLoad : Obligations.StateWfAfterLoad := by
  intro unloaded img s h
  obtain ⟨⟨hlen, -⟩, rfl⟩ := load_eq_next.1 h
  have hwf := storeOfWords_wf (imageContents_length unloaded hlen).le
  exact stateWf_loaded hwf hwf

/-- Settles O47: the front latches of a loaded state are bubbles. -/
theorem pipelineInvAfterLoad : Obligations.PipelineInvAfterLoad := by
  intro unloaded img s h
  obtain ⟨-, rfl⟩ := load_eq_next.1 h
  exact pipelineInv_loaded _ _

/-- Settles O7: words that read as unlisted leave no cell. -/
theorem resetIsLoadOfNothing : Obligations.ResetIsLoadOfNothing := by
  have hempty : storeOfWords (imageContents (fun _ => 0) []) = ⟨[]⟩ :=
    congrArg Store.mk (cellsOfWords_unlisted 0 _ fun w hw => by
      obtain ⟨_, _, rfl⟩ := List.mem_map.1 hw
      rfl)
  refine load_eq_next.2 ⟨⟨Nat.zero_le _, nofun⟩, ?_⟩
  rw [hempty, State.reset]

/-- The three reset bubbles in flight and nothing counted (R232). -/
theorem countsAccountForCycles_loaded (i d : Store) :
    CountsAccountForCycles (State.loaded i d) ⟨0, 0, 0⟩ where
  before_halt _ := by
    have h1 : ifidLive (State.loaded i d) = false := ifidLive_of_bubble rfl
    have h2 : idexLive (State.loaded i d) = false := idexLive_of_bubble rfl
    have h3 : exmemLive (State.loaded i d) = false := exmemLive_of_bubble rfl
    simp [bubblesInFlight, h1, h2, h3]
  at_halt h := by simp at h

/-- Settles O53: three bubbles in flight, no cycle and no count. -/
theorem countsAccountForCyclesAfterLoad : Obligations.CountsAccountForCyclesAfterLoad := by
  intro unloaded img s h
  obtain ⟨-, rfl⟩ := load_eq_next.1 h
  exact countsAccountForCycles_loaded _ _

end Sys2Proof.Machine
end

section
/-! SUPPORT. The codec (30_encoding.md): decoding undoes encoding (O1, O2), and a word has an opcode exactly
when its unused bits are zero (O3). -/

namespace Sys2Proof.Machine

/-! ### An instruction's word -/

/-- R69: one shape for every row, the opcode value and the three fields. -/
theorem encode_eq_enc (i : Instr) :
    encode i = enc (BitVec.ofNat 10 i.opcode) i.field0 i.field1 i.field2 := by
  cases i <;> rfl

theorem opcode_lt_eight (i : Instr) : i.opcode < 8 := by
  cases i <;> simp [Instr.opcode]

/-- Bits 31:22 of an instruction's word are its opcode value (R60). -/
theorem toNat_opcodeField_encode (i : Instr) : (opcodeField (encode i)).toNat = i.opcode := by
  rw [encode_eq_enc, opcodeField_enc, BitVec.toNat_ofNat]
  exact Nat.mod_eq_of_lt ((opcode_lt_eight i).trans (by decide))

/-- Settles O1: the opcode field of the word selects the decoder's row of the same constructor, and the
row's operands are the word's own fields. -/
theorem decodeOfEncode : Obligations.DecodeOfEncode := by
  intro i
  cases i <;> simp [decode, encode]

@[simp] theorem instrOf_encode (i : Instr) : instrOf (encode i) = some i := by
  rw [instrOf, decodeOfEncode i]

/-! ### The unused bits, the opcode bits and the opcode field -/

/-- Bits 31:22 are the unused bits 31:25 above the opcode bits 24:22 (R60). -/
theorem toNat_opcodeField_eq (w : Word) :
    (opcodeField w).toNat = (w.extractLsb' 25 7).toNat * 8 + (w.extractLsb' 22 3).toNat := by
  simp only [opcodeField, BitVec.extractLsb'_toNat, Nat.shiftRight_eq_div_pow]
  have := w.isLt
  omega

theorem unusedBits_eq_zero_iff (w : Word) : w.extractLsb' 25 7 = 0 ↔ (opcodeField w).toNat < 8 := by
  rw [toNat_opcodeField_eq, ← BitVec.toNat_inj, show (0 : BitVec 7).toNat = 0 from rfl]
  have := (w.extractLsb' 22 3).isLt
  omega

/-- Where the unused bits are zero, the opcode bits are the whole opcode field. -/
theorem toNat_opcodeBits {w : Word} (h : w.extractLsb' 25 7 = 0) :
    (w.extractLsb' 22 3).toNat = (opcodeField w).toNat := by
  rw [toNat_opcodeField_eq, h]
  simp

/-- Read as a signed number, the ten bits of the opcode field lie in 0..7 exactly when they do unsigned:
a set bit 31 makes the raw opcode negative (R62). -/
theorem opcodeRaw_range_iff (w : Word) :
    0 ≤ opcodeRaw w ∧ opcodeRaw w ≤ 7 ↔ (opcodeField w).toNat < 8 := by
  rw [opcodeRaw_eq_toInt, BitVec.toInt]
  have := (opcodeField w).isLt
  split <;> omega

/-! ### The decoder's two answers -/

/-- The decoder names an instruction exactly for that instruction's word (R66, R69). -/
theorem decode_eq_ok_iff {w : Word} {i : Instr} : decode w = .ok i ↔ encode i = w := by
  constructor
  · intro h
    exact encode_of_instrOf (by rw [instrOf, h])
  · rintro rfl
    exact decodeOfEncode i

theorem unusedBits_encode (i : Instr) : (encode i).extractLsb' 25 7 = 0 := by
  rw [unusedBits_eq_zero_iff, toNat_opcodeField_encode]
  exact opcode_lt_eight i

theorem toNat_opcodeBits_encode (i : Instr) : ((encode i).extractLsb' 22 3).toNat = i.opcode := by
  rw [toNat_opcodeBits (unusedBits_encode i), toNat_opcodeField_encode]

/-- Settles O2: the register fields and field2 are `f0`, `f1` and `f2` of the word. -/
theorem encodeOfDecode : Obligations.EncodeOfDecode := by
  refine ⟨fun i => ?_, fun w i => decode_eq_ok_iff.1⟩
  obtain ⟨h0, h1, h2⟩ := fields_of_instrOf (instrOf_encode i)
  exact ⟨unusedBits_encode i, toNat_opcodeBits_encode i, h0, h1, h2⟩

/-- Settles O3: of the decoder's two answers, an instruction's word has zero unused bits and an Undefined
word has not. -/
theorem opcodeValidity : Obligations.OpcodeValidity := by
  intro w
  refine ⟨(unusedBits_eq_zero_iff w).trans (opcodeRaw_range_iff w).symm, ?_⟩
  obtain ⟨i, hi, rfl⟩ | ⟨hop, he⟩ := decode_cases w
  · exact ⟨fun _ => ⟨i, hi, (toNat_opcodeBits_encode i).symm⟩,
      fun hne => absurd (unusedBits_encode i) hne⟩
  · exact ⟨fun hz => absurd ((unusedBits_eq_zero_iff w).1 hz) hop.not_gt, fun _ => he⟩

/-- Settles O4: a closed fact, the decoder run on each of the fourteen words. -/
theorem sampleWordsDecode : Obligations.SampleWordsDecode := by
  unfold Obligations.SampleWordsDecode
  decide

end Sys2Proof.Machine
end

section
/-! SUPPORT. The pipeline's terms and the model's accessors: the relations `AluWrites`, `WritesReg` and
`ReadsReg` are what the forwarding and hazard units test, and a tick that commits is `CommitsTick` with
`FrontAdvances` or a flush (40_pipeline.md R103 to R118). -/

namespace Sys2Proof.Machine

/-! ### Words by their instruction -/

theorem instrOf_eq_some_iff {w : Word} {i : Instr} : instrOf w = some i ↔ w = encode i := by
  constructor
  · exact fun h => (encode_of_instrOf h).symm
  · rintro rfl
    exact instrOf_encode i

/-- An Undefined word has no instruction (R62). -/
theorem instrOf_eq_none_of_undefined {w : Word} (h : w.extractLsb' 25 7 ≠ 0) : instrOf w = none := by
  obtain ⟨-, -, undefined⟩ := opcodeValidity w
  rw [instrOf, undefined h]

/-- What EXMEM forwards to is what `AluWrites` says (R109). -/
theorem namesReg_aluDestinationOf_iff {w : Word} {r : Reg} :
    namesReg (aluDestinationOf w) r = true ↔ AluWrites w r := by
  simp only [AluWrites, aluDestinationOf, ← instrOf_eq_some_iff]
  cases instrOf w with
  | none => simp
  | some i => cases i <;> simp [aluDestination, namesReg_some]

/-- What a word in MEMWB or WBEND writes is what `WritesReg` says (R109, R118). -/
theorem namesReg_destinationOf_iff {w : Word} {r : Reg} :
    namesReg (destinationOf w) r = true ↔ WritesReg w r := by
  simp only [WritesReg, AluWrites, destinationOf, ← instrOf_eq_some_iff]
  cases instrOf w with
  | none => simp
  | some i => cases i <;> simp [destination, namesReg_some]

/-- What the hazard unit sees a word read is what `ReadsReg` says (R106). -/
theorem mem_sourcesOf_iff {w : Word} {r : Reg} : r ∈ sourcesOf w ↔ ReadsReg w r := by
  simp only [ReadsReg, sourcesOf, ← instrOf_eq_some_iff]
  cases instrOf w with
  | none => simp
  | some i => cases i <;> simp [sources, eq_comm]

/-- Only a LW loads a register, that of its field1 (R107). -/
theorem loadDestinationOf_eq_some_iff {w : Word} {r : Reg} :
    loadDestinationOf w = some r ↔ ∃ a c, w = encode (.lw a r c) := by
  simp only [loadDestinationOf, ← instrOf_eq_some_iff]
  cases instrOf w with
  | none => simp
  | some i => cases i <;> simp [loadDestination]

/-! ### What a tick that commits leaves -/

section FrontEnd

variable {s n t : State}

/-- Behind Execute every front end leaves the same (R118, R119). -/
theorem FrontEnd.commitsTick {k v : Word} {m : Store} (front : FrontEnd s (backEnd s k v m) t) :
    CommitsTick s t where
  reg r := by rw [front.reg_eq, backEnd_reg, writebackRegs, readReg_writeReg]
  wbend := front.wbend_eq
  cycles := front.cycles_eq
  imem := front.imem_eq
  status := front.status_eq

/-- With no taken branch the front end stalls or advances (R103, R108). -/
theorem FrontEnd.frontAdvances (front : FrontEnd s n t) (notTaken : branchTaken s = false) :
    FrontAdvances s t := by
  cases front with
  | flush taken => simp [notTaken] at taken
  | stall _ hazardous => exact ⟨rfl, rfl, rfl, rfl, fun _ => ⟨rfl, rfl, rfl⟩, by simp [hazardous]⟩
  | advance _ hazardFree _ =>
    exact ⟨rfl, rfl, rfl, rfl, by simp [hazardFree], fun _ => ⟨rfl, rfl, rfl⟩⟩

end FrontEnd

section Ticks

variable {s t : State} (h : Ticks s t)
include h

/-- A tick that neither halts nor faults commits the instruction in EXMEM (R103, R120). -/
theorem Ticks.commits : ∃ v m, FrontEnd s (backEnd s s.exmem.instr v m) t := by
  obtain ⟨running, hstep, stays⟩ := h
  cases step_outcome hstep with
  | terminal stopped => exact absurd running stopped
  | halts => cases stays
  | faults => cases stays
  | commits _ _ _ front => exact ⟨_, _, front⟩

theorem Ticks.commitsTick : CommitsTick s t := by
  obtain ⟨_, _, front⟩ := h.commits
  exact front.commitsTick

theorem Ticks.frontAdvances (notTaken : branchTaken s = false) : FrontAdvances s t := by
  obtain ⟨_, _, front⟩ := h.commits
  exact front.frontAdvances notTaken

end Ticks

end Sys2Proof.Machine
end

section
/-! SUPPORT. The tick of R103 and `step` (O8, O9, O11, O13). -/

namespace Sys2Proof.Machine

/-! ### The branches of `step` -/

/-- R103, R117: past the halt check, a step is the instruction in EXMEM. -/
theorem step_of_runsTick {s : State} {i : Instr} (runs : RunsTick s)
    (decoded : instrOf s.exmem.instr = some i) : step s = exec i s := by
  obtain ⟨running, noHalt⟩ := runs
  simp [step, running, noHalt, decoded]

/-- Settles O9: the branch of `step` for a word the decoder names. -/
theorem stepRunsDecodedInstruction : Obligations.StepRunsDecodedInstruction := by
  intro s i runs hd
  exact step_of_runsTick runs (by rw [instrOf, hd])

/-- Settles O11: `step` in the branch of the halt check. -/
theorem haltCheckStopsCore : Obligations.HaltCheckStopsCore := by
  intro s a b c running hm
  have halt : isHalt s.memwb.instr = true := by simp [isHalt, hm]
  simp [step, running, halt, enterHalted]

/-! ### The branches of `tick` -/

/-- R206: a fault of the Memory stage ends the transcribed tick. -/
theorem tick_of_memoryStage_error {s : State} {f : Fault} (runs : RunsTick s)
    (h : memoryStage s = .error f) : tick s = raiseFault s f := by
  obtain ⟨running, noHalt⟩ := runs
  simp [tick, running, noHalt, h]

/-- R103, R116: the stages written one after the other, later assignments overriding earlier ones, leave
what `finishTick` builds by choosing among flush, stall, advance and the fetch fault. -/
theorem tick_of_memoryStage_ok {s : State} {out : MemOut} (runs : RunsTick s)
    (h : memoryStage s = .ok out) :
    tick s = finishTick s s.exmem.instr out.writeData (applyMemory s s out).dmem (branchTaken s) := by
  obtain ⟨running, noHalt⟩ := runs
  simp only [tick, running, noHalt, h, Bool.false_eq_true, if_false]
  simp only [tickStages, finishTick, fetchStage, instrFetch]
  cases hazard s.ifid.instr s.idex.instr
  · cases branchTaken s
    · cases fetchAddressValid s.pc <;> rfl
    · rfl
  · cases branchTaken s <;> rfl

section Memory

variable {s : State} {i : Instr} (runs : RunsTick s) (decoded : instrOf s.exmem.instr = some i)
include runs decoded

/-- ADD and NOR share their Memory stage. -/
theorem aluTick_eq_tick {rd : Half} (notBeq : ∀ a b c, i ≠ .beq a b c)
    (stage : memoryStage s = if 7 < rd.toNat then .error (.invalidInstruction s.exmem.instr s.cycles)
      else .ok ⟨s.exmem.aluResult, none⟩) : aluTick s (encode i) rd = tick s := by
  rw [encode_of_instrOf decoded]
  obtain ⟨legal, e⟩ | ⟨illegal, e⟩ := aluTick_cases s s.exmem.instr rd <;> rw [e]
  · rw [if_neg legal.not_gt] at stage
    rw [tick_of_memoryStage_ok runs stage, branchTaken_eq_false decoded notBeq]
    rfl
  · rw [if_pos illegal] at stage
    rw [tick_of_memoryStage_error runs stage]

/-- JALR, HALT and NOOP share their Memory stage. -/
theorem plainTick_eq_tick (notBeq : ∀ a b c, i ≠ .beq a b c)
    (stage : memoryStage s = .ok ⟨0, none⟩) : plainTick s (encode i) = tick s := by
  rw [encode_of_instrOf decoded, tick_of_memoryStage_ok runs stage,
    branchTaken_eq_false decoded notBeq]
  rfl

end Memory

section Access

variable {s : State} {rs rt : Reg} {off : Half} (runs : RunsTick s)
include runs

theorem loadTick_eq_tick (decoded : instrOf s.exmem.instr = some (.lw rs rt off)) :
    loadTick s (encode (.lw rs rt off)) = tick s := by
  rw [encode_of_instrOf decoded]
  obtain ⟨valid, e⟩ | ⟨invalid, e⟩ := loadTick_cases s s.exmem.instr <;> rw [e]
  · have stage : memoryStage s = .ok ⟨s.dmem.read s.exmem.aluResult.toNat, none⟩ := by
      simp [memoryStage, decoded, (dataAddressValid_iff _).2 valid, addressIndex_of_valid valid]
    rw [tick_of_memoryStage_ok runs stage, branchTaken_eq_false decoded nofun]
    rfl
  · have stage : memoryStage s =
        .error (.invalidAddressData s.exmem.aluResult s.exmem.instr s.cycles) := by
      simp [memoryStage, decoded, dataAddressValid_iff, invalid.not_gt]
    rw [tick_of_memoryStage_error runs stage]

theorem storeTick_eq_tick (decoded : instrOf s.exmem.instr = some (.sw rs rt off)) :
    storeTick s (encode (.sw rs rt off)) = tick s := by
  rw [encode_of_instrOf decoded]
  obtain ⟨valid, e⟩ | ⟨invalid, e⟩ := storeTick_cases s s.exmem.instr <;> rw [e]
  · have stage : memoryStage s = .ok ⟨0, some (s.exmem.aluResult, s.exmem.readRegB)⟩ := by
      simp [memoryStage, decoded, (dataAddressValid_iff _).2 valid]
    rw [tick_of_memoryStage_ok runs stage, branchTaken_eq_false decoded nofun,
      ← addressIndex_of_valid valid]
    rfl
  · have stage : memoryStage s =
        .error (.invalidAddressData s.exmem.aluResult s.exmem.instr s.cycles) := by
      simp [memoryStage, decoded, dataAddressValid_iff, invalid.not_gt]
    rw [tick_of_memoryStage_error runs stage]

theorem branchTick_eq_tick (decoded : instrOf s.exmem.instr = some (.beq rs rt off)) :
    branchTick s (encode (.beq rs rt off)) = tick s := by
  have stage : memoryStage s = .ok ⟨0, none⟩ := by simp [memoryStage, decoded]
  rw [encode_of_instrOf decoded, tick_of_memoryStage_ok runs stage, branchTaken_of_beq decoded]
  rfl

end Access

/-- The dispatch by instruction is the transcribed tick, each arm through its Memory stage. -/
theorem exec_eq_tick {s : State} {i : Instr} (runs : RunsTick s)
    (decoded : instrOf s.exmem.instr = some i) : exec i s = .next (tick s) := by
  cases i <;> refine congrArg Host.Outcome.next ?_
  case add | nor => exact aluTick_eq_tick runs decoded nofun (by simp only [memoryStage, decoded])
  case lw => exact loadTick_eq_tick runs decoded
  case sw => exact storeTick_eq_tick runs decoded
  case beq => exact branchTick_eq_tick runs decoded
  case jalr | halt | noop =>
    exact plainTick_eq_tick runs decoded nofun (by simp only [memoryStage, decoded])

/-- Settles O8, by the branches of `step`; the instruction in EXMEM is `exec_eq_tick`. -/
theorem stepIsTheTick : Obligations.StepIsTheTick := by
  intro s
  obtain ⟨stopped, e⟩ | ⟨running, halt, e⟩ | ⟨running, noHalt, undefined, e⟩ |
    ⟨running, noHalt, i, decoded, e⟩ := step_cases s <;> rw [e]
  · cases hs : s.status <;> simp_all [tick]
  · simp [tick, running, halt, enterHalted]
  · have stage : memoryStage s = .error (.invalidInstruction s.exmem.instr s.cycles) := by
      simp only [memoryStage, undefined]
    rw [tick_of_memoryStage_error ⟨running, noHalt⟩ stage, undefinedTick]
  · exact exec_eq_tick ⟨running, noHalt⟩ decoded

/-- Settles O13: the transcribed tick is a function of the snapshot. -/
theorem stepAlwaysAnswers : Obligations.StepAlwaysAnswers :=
  fun s => ⟨tick s, stepIsTheTick s⟩

end Sys2Proof.Machine
end

section
/-! SUPPORT. The stages of a tick that commits (O10, O27 to O32). -/

namespace Sys2Proof.Machine

/-! ### Forwarding and the hazard -/

/-- Settles O28, by the order of the tests in `forward`. -/
theorem nearestProducerForwards : Obligations.NearestProducerForwards := by
  intro s r v0
  simp only [← namesReg_aluDestinationOf_iff, ← namesReg_destinationOf_iff, forward]
  refine ⟨fun hx => if_pos hx, fun hx hm => ?_, fun hx hm hw => ?_, fun hx hm hw => ?_⟩
  · rw [if_neg hx, if_pos hm]
  · rw [if_neg hx, if_neg hm, if_pos hw]
  · rw [if_neg hx, if_neg hm, if_neg hw]

/-- Settles O29: the two tests of `hazard`, each by the lemma that says which words pass it. -/
theorem hazardExactly : Obligations.HazardExactly := by
  intro i d
  simp only [hazard_iff, mem_sourcesOf_iff, loadDestinationOf_eq_some_iff]
  constructor
  · rintro ⟨r, reads, a, c, load⟩
    exact ⟨a, r, c, load, reads⟩
  · rintro ⟨a, r, c, load, reads⟩
    exact ⟨r, reads, a, c, load⟩

/-- Settles O30: the bubble the stall leaves in IDEX is no LW. -/
theorem stallLastsOneTick : Obligations.StallLastsOneTick := by
  intro s t h notTaken hazardous
  have front := h.frontAdvances notTaken
  obtain ⟨hpc, hifid, hidex⟩ := front.stall hazardous
  have noHazard : hazard t.ifid.instr t.idex.instr = false := by
    rw [hidex, hazard, loadDestinationOf_noopWord]
  exact ⟨hpc, hifid, hidex, front.exmem_instr, noHazard⟩

/-! ### Execute -/

section Operands

variable {s : State} {i : Instr} (hi : s.idex.instr = encode i) (forwards : takesForwarding i = true)
include hi forwards

/-- R111: operand `a` of an instruction that takes forwarding. -/
theorem operandA_eq_forward : operandA s = forward s i.field0 s.idex.readRegA := by
  obtain ⟨hf0, -, -⟩ := fields_of_instrOf (instrOf_eq_some_iff.2 hi)
  rw [operandA, hf0, hi, takesForwardingOf, instrOf_encode]
  exact if_pos forwards

/-- R111: operand `b` of an instruction that takes forwarding. -/
theorem operandB_eq_forward : operandB s = forward s i.field1 s.idex.readRegB := by
  obtain ⟨-, hf1, -⟩ := fields_of_instrOf (instrOf_eq_some_iff.2 hi)
  rw [operandB, hf1, hi, takesForwardingOf, instrOf_encode]
  exact if_pos forwards

end Operands

/-- R112, R113: with no taken branch, EXMEM gets the ALU's result for the instruction in IDEX. -/
theorem FrontAdvances.aluResult_eq {s t : State} {i : Instr} (front : FrontAdvances s t)
    (hi : s.idex.instr = encode i) :
    t.exmem.aluResult = alu i (operandA s) (operandB s) s.idex.offset := by
  rw [front.exmem_result, hi, aluOf, instrOf_encode]

/-- Settles O27, by the rows of `alu`. -/
theorem aluTable : Obligations.AluTable := by
  intro s t h notTaken
  have front := h.frontAdvances notTaken
  refine ⟨fun x y z hi => ?add, fun x y z hi => ?nor, fun x y z hi => ?lw, fun x y z hi => ?sw,
    fun x y z hi => ?beq, fun x y z hi => ?noResult, fun undefined => ?undefined⟩
  case add | nor | beq =>
    rw [front.aluResult_eq hi, operandA_eq_forward hi rfl, operandB_eq_forward hi rfl]; rfl
  case lw => rw [front.aluResult_eq hi, operandA_eq_forward hi rfl]; rfl
  case sw =>
    constructor
    · rw [front.aluResult_eq hi, operandA_eq_forward hi rfl]; rfl
    · rw [front.exmem_readRegB, operandB_eq_forward hi rfl]; rfl
  case noResult => obtain hi | hi | hi := hi <;> exact front.aluResult_eq hi
  case undefined => rw [front.exmem_result, aluOf, instrOf_eq_none_of_undefined undefined]; rfl

/-! ### Writeback and the cycle counter -/

/-- Settles O31: the registers of `CommitsTick`, split by whether the word in MEMWB writes them. -/
theorem writebackWritesDestination : Obligations.WritebackWritesDestination := by
  intro s t h
  have commits := h.commitsTick
  simp only [← namesReg_destinationOf_iff]
  refine ⟨fun r written => ?_, fun r kept => ?_, commits.wbend⟩
  · rw [commits.reg, if_pos written]
  · rw [commits.reg, if_neg kept]

/-- Settles O32, by what a step from a RUNNING state can do: halt, fault or commit. -/
theorem cyclesCountTicks : Obligations.CyclesCountTicks := by
  intro s t running h
  cases step_outcome h with
  | terminal stopped => exact absurd running stopped
  | halts => exact ⟨nofun, fun _ => rfl⟩
  | faults => exact ⟨nofun, fun _ => rfl⟩
  | commits _ _ _ front =>
    have commits := front.commitsTick
    exact ⟨fun _ => commits.cycles, fun stops => absurd (commits.status.trans running) stops⟩

/-! ### From Fetch to the Memory stage -/

/-- Settles O10: the word goes from the store to IFID, IDEX and EXMEM, one latch a tick. -/
theorem fetchedWordReachesExec : Obligations.FetchedWordReachesExec := by
  intro s0 s1 s2 s3 i h0 h1 h2 notTaken0 notTaken1 notTaken2 free0 free1 noHalt hd
  obtain ⟨-, fetched, -⟩ := (h0.frontAdvances notTaken0).fetch free0
  obtain ⟨-, -, decoded⟩ := (h1.frontAdvances notTaken1).fetch free1
  have word : s3.exmem.instr = encode i :=
    calc s3.exmem.instr = s2.idex.instr := (h2.frontAdvances notTaken2).exmem_instr
      _ = s1.ifid.instr := by rw [decoded]
      _ = s0.imem.read s0.pc.toNat := by rw [fetched]
      _ = encode i := (decode_eq_ok_iff.1 hd).symm
  obtain ⟨-, -, running⟩ := h2
  exact ⟨word, step_of_runsTick ⟨running, noHalt⟩ (instrOf_eq_some_iff.2 word)⟩

end Sys2Proof.Machine
end

section
/-! SUPPORT. An instruction in the Memory stage that raises nothing completes (R103, R117), and two ticks
later the register file is the program's (R118, R226). -/

namespace Sys2Proof.Machine

/-! ### The end of a tick -/

/-- With no taken branch and nothing raised by the fetch, the end of the tick stalls or advances (R49,
R103). -/
theorem finishTick_frontEnd {s : State} (notTaken : branchTaken s = false) (fetch : FetchOk s)
    (k v : Word) (m : Store) : FrontEnd s (backEnd s k v m) (finishTick s k v m false) := by
  obtain ⟨taken, -⟩ | ⟨-, hazardous, e⟩ | ⟨-, hazardFree, fetchable, e⟩ |
    ⟨-, hazardFree, outside, -⟩ := finishTick_cases s k v m false
  · cases taken
  · rw [e]; exact .stall notTaken hazardous
  · rw [e]; exact .advance notTaken hazardFree fetchable
  · obtain hazardous | fetchable := fetch
    · exact absurd hazardous (Bool.eq_false_iff.1 hazardFree)
    · exact absurd fetchable outside.not_gt

/-- An instruction whose Memory stage answers `v` and `m` without a branch leaves them in MEMWB and the
data store, with the frame of the whole state. -/
theorem exec_completes {s : State} {i : Instr} {v : Word} {m : Store}
    (notTaken : branchTaken s = false) (fetch : FetchOk s)
    (stage : exec i s = .next (finishTick s (encode i) v m false)) :
    ∃ t, exec i s = .next t ∧ t.memwb = ⟨encode i, v⟩ ∧ t.dmem = m ∧
      CommitsTick s t ∧ FrontAdvances s t := by
  have front := finishTick_frontEnd notTaken fetch (encode i) v m
  exact ⟨_, stage, front.memwb_eq, front.dmem_eq, front.commitsTick, front.frontAdvances notTaken⟩

/-! ### Two ticks from the Memory stage to the register file -/

section Ticks

variable {s t u : State}

/-- A tick that commits, with what its Memory stage answers (R103, R117). -/
theorem Ticks.memoryAnswers (h : Ticks s t) : ∃ i v m, instrOf s.exmem.instr = some i ∧
    MemoryAnswers s i v m ∧ FrontEnd s (backEnd s s.exmem.instr v m) t := by
  obtain ⟨running, hstep, stays⟩ := h
  cases step_outcome hstep with
  | terminal stopped => exact absurd running stopped
  | halts => cases stays
  | faults => cases stays
  | commits _ decoded answer front => exact ⟨_, _, _, decoded, answer, front⟩

theorem Ticks.reg_eq (h : Ticks s t) : t.reg = writebackRegs s := by
  obtain ⟨_, _, front⟩ := h.commits
  exact front.reg_eq

/-- After two ticks the words that were in EXMEM and MEMWB are written back (R118, R226). -/
theorem Ticks.readReg_eq_programReg (first : Ticks s t) (second : Ticks t u) (r : Reg) :
    readReg u.reg r = programReg s r := by
  obtain ⟨_, _, _, decoded, answer, front⟩ := first.memoryAnswers
  rw [second.reg_eq]
  exact readReg_writebackRegs_of_commits decoded answer front r

end Ticks

end Sys2Proof.Machine
end

section
/-! SUPPORT. ADD and NOR (41_alu.md): in the Memory stage (O15, O16, O17), and their result in the
destination register (O35). -/

namespace Sys2Proof.Machine

/-! ### The Memory stage -/

section Dispatch

variable (rs rt : Reg) (rd : Half) (s : State)

/-- ADD's arm of the dispatch (R140). -/
theorem exec_add : exec (.add rs rt rd) s = .next (aluTick s (encode (.add rs rt rd)) rd) := rfl

/-- NOR's arm of the dispatch (R141). -/
theorem exec_nor : exec (.nor rs rt rd) s = .next (aluTick s (encode (.nor rs rt rd)) rd) := rfl

end Dispatch

theorem aluTick_of_legal {rd : Half} (legal : rd.toNat ≤ 7) (s : State) (k : Word) :
    aluTick s k rd = finishTick s k s.exmem.aluResult s.dmem false :=
  if_pos legal

theorem aluTick_of_illegal {rd : Half} (illegal : 7 < rd.toNat) (s : State) (k : Word) :
    aluTick s k rd = raiseFault s (.invalidInstruction k s.cycles) :=
  if_neg illegal.not_ge

/-- Settles O17: the illegal branch of the Memory stage that ADD and NOR share. -/
theorem illegalDestinationFaults : Obligations.IllegalDestinationFaults := by
  intro s rs rt rd illegal
  rw [exec_add, exec_nor, aluTick_of_illegal illegal, aluTick_of_illegal illegal]
  exact ⟨rfl, rfl⟩

/-- The legal branch of that Memory stage passes the ALU result in EXMEM on to MEMWB (R117). -/
theorem exec_completes_of_aluTick {s : State} {i : Instr} {rd : Half} {target v b : Word}
    (dispatch : exec i s = .next (aluTick s (encode i) rd)) (notBeq : ∀ x y z, i ≠ .beq x y z)
    (hx : s.exmem = ⟨encode i, target, v, b⟩) (legal : rd.toNat ≤ 7) (fetch : FetchOk s) :
    ∃ t, exec i s = .next t ∧ t.memwb = ⟨encode i, v⟩ ∧ t.dmem = s.dmem ∧
      CommitsTick s t ∧ FrontAdvances s t := by
  have decoded : instrOf s.exmem.instr = some i := by rw [hx, instrOf_encode]
  rw [aluTick_of_legal legal, hx] at dispatch
  exact exec_completes (branchTaken_eq_false decoded notBeq) fetch dispatch

/-- Settles O15: no ADD takes a branch. -/
theorem addCompletes : Obligations.AddCompletes := by
  intro s rs rt rd target a b hx legal fetch
  exact exec_completes_of_aluTick (exec_add rs rt rd s) nofun hx legal fetch

/-- Settles O16: no NOR takes a branch. -/
theorem norCompletes : Obligations.NorCompletes := by
  intro s rs rt rd target a b hx legal fetch
  exact exec_completes_of_aluTick (exec_nor rs rt rd s) nofun hx legal fetch

/-! ### From Execute to the register file -/

/-- An ADD or NOR in EXMEM gives its destination the ALU result, which is no loaded word (R109, R118). -/
theorem programReg_of_aluWrites {s : State} {r : Reg} (writes : AluWrites s.exmem.instr r) :
    programReg s r = s.exmem.aluResult := by
  have noLoad : loadDestinationOf s.exmem.instr ≠ some r := by
    obtain ⟨_, _, _, word | word, -⟩ := writes <;>
      simp [loadDestinationOf, word, loadDestination]
  rw [programReg, if_pos (namesReg_destinationOf_iff.2 (.inl writes)), if_neg noLoad]

/-- The ALU result of an ADD or NOR in Execute is in its destination three ticks later (R140, R141,
R233). -/
theorem aluResult_reaches_register {s0 s1 s2 s3 : State} {i : Instr} {r : Reg} (h0 : Ticks s0 s1)
    (h1 : Ticks s1 s2) (h2 : Ticks s2 s3) (notTaken : branchTaken s0 = false)
    (hi : s0.idex.instr = encode i) (writes : AluWrites (encode i) r) :
    readReg s3.reg r = alu i (operandA s0) (operandB s0) s0.idex.offset := by
  have front := h0.frontAdvances notTaken
  have writes' : AluWrites s1.exmem.instr r := by rwa [front.exmem_instr, hi]
  calc readReg s3.reg r = programReg s1 r := h1.readReg_eq_programReg h2 r
    _ = s1.exmem.aluResult := programReg_of_aluWrites writes'
    _ = alu i (operandA s0) (operandB s0) s0.idex.offset := front.aluResult_eq hi

/-- Settles O35, by the two rows of `alu`. -/
theorem aluResultReachesRegister : Obligations.AluResultReachesRegister := by
  intro s0 s1 s2 s3 rs rt rd r h0 h1 h2 notTaken hrd
  constructor
  · intro hi
    exact aluResult_reaches_register h0 h1 h2 notTaken hi ⟨rs, rt, rd, .inl rfl, hrd⟩
  · intro hi
    exact aluResult_reaches_register h0 h1 h2 notTaken hi ⟨rs, rt, rd, .inr rfl, hrd⟩

end Sys2Proof.Machine
end

section
/-! SUPPORT. LW and SW (42_loadstore.md): in the Memory stage (O18, O19), and across the ticks from
Execute to the register file and the data store (O36, O37). -/

namespace Sys2Proof.Machine

/-! ### The Memory stage -/

/-- The range of R47 and R48 as the store laws state it. -/
theorem dataAddressOk_iff {a : Word} : DataAddressOk a ↔ a.toNat < 65536 := by
  rw [← dataAddressValid_iff, dataAddressValid, decide_eq_true_eq, DataAddressOk,
    Config.dmemWords]
  omega

section Dispatch

variable (rs rt : Reg) (off : Half) (s : State)

/-- LW's arm of the dispatch (R150). -/
theorem exec_lw : exec (.lw rs rt off) s = .next (loadTick s (encode (.lw rs rt off))) := rfl

/-- SW's arm of the dispatch (R151). -/
theorem exec_sw : exec (.sw rs rt off) s = .next (storeTick s (encode (.sw rs rt off))) := rfl

end Dispatch

theorem loadTick_of_valid {s : State} (valid : s.exmem.aluResult.toNat < 65536) (k : Word) :
    loadTick s k = finishTick s k (s.dmem.read s.exmem.aluResult.toNat) s.dmem false := by
  obtain ⟨-, e⟩ | ⟨invalid, -⟩ := loadTick_cases s k
  · exact e
  · exact absurd valid invalid.not_gt

theorem storeTick_of_valid {s : State} (valid : s.exmem.aluResult.toNat < 65536) (k : Word) :
    storeTick s k = finishTick s k 0
      (s.dmem.write s.exmem.aluResult.toNat s.exmem.readRegB) false := by
  obtain ⟨-, e⟩ | ⟨invalid, -⟩ := storeTick_cases s k
  · exact e
  · exact absurd valid invalid.not_gt

/-- Settles O18: the valid branch of the Memory stage reads the word, and no LW takes a branch. -/
theorem lwCompletes : Obligations.LwCompletes := by
  intro s rs rt off target a b hx ok fetch
  have decoded : instrOf s.exmem.instr = some (.lw rs rt off) := by rw [hx, instrOf_encode]
  have valid : s.exmem.aluResult.toNat < 65536 := by rw [hx]; exact dataAddressOk_iff.1 ok
  have stage := exec_lw rs rt off s
  rw [loadTick_of_valid valid, hx] at stage
  exact exec_completes (branchTaken_eq_false decoded nofun) fetch stage

/-- Settles O19: the valid branch of the Memory stage writes the word, which keeps a canonical store
canonical and every other word as it is; no SW takes a branch. -/
theorem swCompletes : Obligations.SwCompletes := by
  intro s rs rt off target a b hx canonical ok fetch
  have decoded : instrOf s.exmem.instr = some (.sw rs rt off) := by rw [hx, instrOf_encode]
  have inRange := dataAddressOk_iff.1 ok
  have valid : s.exmem.aluResult.toNat < 65536 := by rwa [hx]
  have stage := exec_sw rs rt off s
  rw [storeTick_of_valid valid, hx] at stage
  obtain ⟨t, answers, memwb, dmem, commits, front⟩ :=
    exec_completes (branchTaken_eq_false decoded nofun) fetch stage
  have canonical' : t.dmem.wf Config.dmemWords = true := by
    rw [dmem]; exact Store.write_wf inRange canonical
  have contents (x : Nat) :
      t.dmem.read x = if x = (a + sext16 off).toNat then b else s.dmem.read x := by
    rw [dmem, Store.read_write _ _ _ canonical]
  exact ⟨t, answers, memwb, canonical', contents, commits, front⟩

/-! ### The data access of a tick that commits -/

section Ticks

variable {s t : State} {rs rt : Reg} {off : Half} (h : Ticks s t)
include h

/-- What the Memory stage answers in a tick that commits, for a given word in EXMEM. -/
theorem Ticks.memoryAnswers_of_encode {i : Instr} (word : s.exmem.instr = encode i) :
    ∃ v m, MemoryAnswers s i v m ∧ FrontEnd s (backEnd s s.exmem.instr v m) t := by
  obtain ⟨j, v, m, decoded, answer, front⟩ := h.memoryAnswers
  have same : some j = some i := by rw [← decoded, word, instrOf_encode]
  cases same
  exact ⟨v, m, answer, front⟩

/-- The tick of a LW hands the addressed word to MEMWB (R47, R150). -/
theorem Ticks.memwb_of_lw (word : s.exmem.instr = encode (.lw rs rt off)) :
    t.memwb = ⟨s.exmem.instr, s.dmem.read s.exmem.aluResult.toNat⟩ := by
  obtain ⟨_, _, answer, front⟩ := h.memoryAnswers_of_encode word
  cases answer
  exact front.memwb_eq

/-- The tick of a SW writes its second operand at its address (R48, R151). -/
theorem Ticks.dmem_of_sw (word : s.exmem.instr = encode (.sw rs rt off)) :
    t.dmem = s.dmem.write s.exmem.aluResult.toNat s.exmem.readRegB := by
  obtain ⟨_, _, answer, front⟩ := h.memoryAnswers_of_encode word
  cases answer
  exact front.dmem_eq

/-- Where MEMWB holds a LW, Writeback puts its write data in the register of field1 (R118, C1). -/
theorem Ticks.readReg_of_lw (word : s.memwb.instr = encode (.lw rs rt off)) :
    readReg t.reg rt = s.memwb.writeData := by
  have written := namesReg_destinationOf_iff.2 (.inr ⟨rs, off, word⟩)
  rw [h.commitsTick.reg, if_pos written]

end Ticks

/-! ### From Execute to the register file and the data store -/

/-- Settles O36: Execute forms the address, the Memory stage reads the word there, Writeback writes
it, one tick each (R233). -/
theorem loadedWordReachesRegister : Obligations.LoadedWordReachesRegister := by
  intro s0 s1 s2 s3 rs rt off h0 h1 h2 notTaken hi
  have front := h0.frontAdvances notTaken
  have address : s1.exmem.aluResult = operandA s0 + s0.idex.offset := front.aluResult_eq hi
  have word : s1.exmem.instr = encode (.lw rs rt off) := front.exmem_instr.trans hi
  have loaded := h1.memwb_of_lw word
  calc readReg s3.reg rt = s2.memwb.writeData := h2.readReg_of_lw (by rw [loaded, word])
    _ = s1.dmem.read s1.exmem.aluResult.toNat := by rw [loaded]
    _ = s1.dmem.read (operandA s0 + s0.idex.offset).toNat := by rw [address]

/-- Settles O37: the SW's Memory tick writes the value, and the Memory tick of the LW behind it
reads the store one tick later; the SW takes no branch, so the LW is not flushed (R228). -/
theorem storedWordIsLoadedNext : Obligations.StoredWordIsLoadedNext := by
  intro s0 s1 s2 s3 rs rt rs' rt' off off' h0 h1 h2 notTaken canonical hi
  have front := h0.frontAdvances notTaken
  have address : s1.exmem.aluResult = operandA s0 + s0.idex.offset := front.aluResult_eq hi
  have word : s1.exmem.instr = encode (.sw rs rt off) := front.exmem_instr.trans hi
  have stored : s2.dmem.read (operandA s0 + s0.idex.offset).toNat = operandB s0 := by
    rw [h1.dmem_of_sw word, address, front.exmem_readRegB, Store.read_write _ _ _ canonical,
      if_pos rfl]
  refine ⟨stored, fun hi' sameAddress => ?_⟩
  have notTaken' : branchTaken s1 = false :=
    branchTaken_eq_false (instrOf_eq_some_iff.2 word) nofun
  have front' := h1.frontAdvances notTaken'
  have address' : s2.exmem.aluResult = operandA s1 + s1.idex.offset := front'.aluResult_eq hi'
  have word' : s2.exmem.instr = encode (.lw rs' rt' off') := front'.exmem_instr.trans hi'
  calc s3.memwb.writeData = s2.dmem.read s2.exmem.aluResult.toNat := by rw [h2.memwb_of_lw word']
    _ = s2.dmem.read (operandA s0 + s0.idex.offset).toNat := by rw [address', sameAddress]
    _ = operandB s0 := stored

end Sys2Proof.Machine
end

section
/-! SUPPORT. BEQ (43_branch.md): in the Memory stage, which resolves it (O21, O22), and from Execute to
the fetch of its target (O38). -/

namespace Sys2Proof.Machine

/-! ### The flush -/

section Flush

variable {s n t u : State}

/-- A taken branch wins over a stall and over the fetch: the front end is the flush (R115, R116). -/
theorem FrontEnd.frontFlushed (front : FrontEnd s n t) (taken : branchTaken s = true) :
    FrontFlushed s t := by
  cases front with
  | flush => exact ⟨rfl, rfl, rfl, rfl⟩
  | stall notTaken _ => simp [taken] at notTaken
  | advance notTaken _ _ => simp [taken] at notTaken

theorem Ticks.frontFlushed (h : Ticks s t) (taken : branchTaken s = true) : FrontFlushed s t := by
  obtain ⟨_, _, front⟩ := h.commits
  exact front.frontFlushed taken

theorem FrontFlushed.branchTaken_eq_false (flushed : FrontFlushed s t) : branchTaken t = false := by
  rw [branchTaken, flushed.exmem, isBeq_noopWord, Bool.false_and]

theorem FrontFlushed.hazard_eq_false (flushed : FrontFlushed s t) :
    hazard t.ifid.instr t.idex.instr = false := by
  rw [hazard, flushed.idex, loadDestinationOf_noopWord]

/-- Neither a branch nor a load is left behind a flush, so the next tick fetches at the branch target
(R104, R115). -/
theorem FrontFlushed.ifid_of_ticks (flushed : FrontFlushed s t) (next : Ticks t u) :
    u.ifid = ⟨t.imem.read s.exmem.branchTarget.toNat, s.exmem.branchTarget + 1⟩ := by
  obtain ⟨-, fetched, -⟩ :=
    (next.frontAdvances flushed.branchTaken_eq_false).fetch flushed.hazard_eq_false
  rw [fetched, flushed.pc]

end Flush

/-! ### The Memory stage -/

section Resolve

variable {s : State} {rs rt : Reg} {off : Half} (word : s.exmem.instr = encode (.beq rs rt off))
include word

/-- A BEQ in EXMEM with the difference of its operands is taken exactly when they are equal (R114). -/
theorem branchTaken_iff_of_beq {a b : Word} (result : s.exmem.aluResult = a - b) :
    branchTaken s = true ↔ a = b := by
  rw [branchTaken_of_beq (instrOf_eq_some_iff.2 word), result, resultIsZero, decide_eq_true_eq]
  exact sub_eq_zero

/-- BEQ's arm of the dispatch resolves the branch and answers nothing else (R117, R160). -/
theorem exec_beq : exec (.beq rs rt off) s =
    .next (finishTick s (encode (.beq rs rt off)) 0 s.dmem (branchTaken s)) := by
  rw [branchTaken_of_beq (instrOf_eq_some_iff.2 word)]
  rfl

end Resolve

/-- With a taken branch the end of the tick is the flush, whatever `pc` is (R115, R116). -/
theorem finishTick_frontEnd_of_taken {s : State} (taken : branchTaken s = true) (k v : Word)
    (m : Store) : FrontEnd s (backEnd s k v m) (finishTick s k v m true) :=
  .flush taken

/-- Settles O21: operands that differ have a difference other than 0, so no branch is taken. -/
theorem beqNotTakenCompletes : Obligations.BeqNotTakenCompletes := by
  intro s rs rt off pcPlus1 a b hx differ fetch
  have word : s.exmem.instr = encode (.beq rs rt off) := by rw [hx]
  have result : s.exmem.aluResult = a - b := by rw [hx]
  have notTaken : branchTaken s = false :=
    Bool.eq_false_iff.2 (mt (branchTaken_iff_of_beq word result).1 differ)
  have stage := exec_beq word
  rw [notTaken] at stage
  exact exec_completes notTaken fetch stage

/-- Settles O22: equal operands have difference 0, so the tick ends with the flush. -/
theorem beqTakenCompletes : Obligations.BeqTakenCompletes := by
  intro s rs rt off pcPlus1 a b hx same
  have word : s.exmem.instr = encode (.beq rs rt off) := by rw [hx]
  have result : s.exmem.aluResult = a - b := by rw [hx]
  have taken : branchTaken s = true := (branchTaken_iff_of_beq word result).2 same
  have stage := exec_beq word
  rw [taken] at stage
  have front := finishTick_frontEnd_of_taken taken (encode (.beq rs rt off)) 0 s.dmem
  have flushed := front.frontFlushed taken
  have target : s.exmem.branchTarget = pcPlus1 + sext16 off := by rw [hx, BitVec.add_comm]
  exact ⟨_, stage, flushed.pc.trans target, front.memwb_eq, front.dmem_eq, front.commitsTick, flushed⟩

/-! ### From Execute to the fetch of the target -/

/-- Settles O38: Execute subtracts the equal operands and forms the target, the Memory stage flushes,
and the tick behind the flush fetches at the target, one tick each (R231). -/
theorem takenBranchFetchesTarget : Obligations.TakenBranchFetchesTarget := by
  intro s0 s1 s2 s3 rs rt off h0 h1 h2 notTaken hi same
  have front := h0.frontAdvances notTaken
  have word : s1.exmem.instr = encode (.beq rs rt off) := front.exmem_instr.trans hi
  have result : s1.exmem.aluResult = operandA s0 - operandB s0 := front.aluResult_eq hi
  have target : s1.exmem.branchTarget = s0.idex.pcPlus1 + s0.idex.offset := by
    rw [front.exmem_target, BitVec.add_comm]
  have flushed := h1.frontFlushed ((branchTaken_iff_of_beq word result).2 same)
  have program : s2.imem = s0.imem := h1.commitsTick.imem.trans h0.commitsTick.imem
  refine ⟨flushed, flushed.pc.trans target, ?_⟩
  rw [flushed.ifid_of_ticks h2, target, program]

end Sys2Proof.Machine
end

section
/-! SUPPORT. JALR, HALT, NOOP and Undefined words (44_system.md): in the Memory stage (O23, O14), and
the halted core behind a HALT (O40). -/

namespace Sys2Proof.Machine

/-! ### A tick that takes no branch

O23 states `exec` of an instruction with no effect for every snapshot, also for one with a BEQ in EXMEM
that would be taken. `FrontEnd` leaves that snapshot out, so the stall and the advance are read off
here with no premise on `branchTaken`. -/

section Front

variable {s n : State}

theorem backEnd_commitsTick (k v : Word) (m : Store) : CommitsTick s (backEnd s k v m) where
  reg r := by rw [backEnd_reg, writebackRegs, readReg_writeReg]
  wbend := rfl
  cycles := rfl
  imem := rfl
  status := rfl

theorem CommitsTick.stallFront (commits : CommitsTick s n) : CommitsTick s (stallFront s n) :=
  ⟨commits.reg, commits.wbend, commits.cycles, commits.imem, commits.status⟩

theorem CommitsTick.advanceFront (commits : CommitsTick s n) (w : Word) :
    CommitsTick s (advanceFront s n w) :=
  ⟨commits.reg, commits.wbend, commits.cycles, commits.imem, commits.status⟩

theorem stallFront_frontAdvances (hazardous : hazard s.ifid.instr s.idex.instr = true) :
    FrontAdvances s (stallFront s n) :=
  ⟨rfl, rfl, rfl, rfl, fun _ => ⟨rfl, rfl, rfl⟩, by simp [hazardous]⟩

theorem advanceFront_frontAdvances (hazardFree : hazard s.ifid.instr s.idex.instr = false) :
    FrontAdvances s (advanceFront s n (s.imem.read s.pc.toNat)) :=
  ⟨rfl, rfl, rfl, rfl, by simp [hazardFree], fun _ => ⟨rfl, rfl, rfl⟩⟩

end Front

/-- JALR, HALT and NOOP share their Memory stage; it has no effect of its own (R117). -/
theorem plainTick_completes {s : State} (fetch : FetchOk s) (k : Word) :
    (plainTick s k).memwb = ⟨k, 0⟩ ∧ (plainTick s k).dmem = s.dmem ∧
      CommitsTick s (plainTick s k) ∧ FrontAdvances s (plainTick s k) := by
  have commits : CommitsTick s (backEnd s k 0 s.dmem) := backEnd_commitsTick k 0 s.dmem
  rw [plainTick]
  obtain ⟨taken, -⟩ | ⟨-, hazardous, e⟩ | ⟨-, hazardFree, -, e⟩ | ⟨-, hazardFree, outside, -⟩ :=
    finishTick_cases s k 0 s.dmem false
  · cases taken
  · rw [e]; exact ⟨rfl, rfl, commits.stallFront, stallFront_frontAdvances hazardous⟩
  · rw [e]; exact ⟨rfl, rfl, commits.advanceFront _, advanceFront_frontAdvances hazardFree⟩
  · obtain hazardous | fetchable := fetch
    · exact absurd hazardous (Bool.eq_false_iff.1 hazardFree)
    · exact absurd fetchable outside.not_gt

/-! ### The dispatch -/

section Dispatch

variable (a b : Reg) (c : Half) (s : State)

/-- JALR's arm of the dispatch (R170). -/
theorem exec_jalr : exec (.jalr a b c) s = .next (plainTick s (encode (.jalr a b c))) := rfl

/-- HALT's arm of the dispatch (R171). -/
theorem exec_halt : exec (.halt a b c) s = .next (plainTick s (encode (.halt a b c))) := rfl

/-- NOOP's arm of the dispatch (R172). -/
theorem exec_noop : exec (.noop a b c) s = .next (plainTick s (encode (.noop a b c))) := rfl

end Dispatch

/-- Settles O23: the three arms are the one Memory stage with no effect. -/
theorem effectFreeInstructionsComplete : Obligations.EffectFreeInstructionsComplete := by
  intro s x y z fetch
  exact ⟨⟨_, exec_jalr x y z s, plainTick_completes fetch _⟩,
    ⟨_, exec_halt x y z s, plainTick_completes fetch _⟩,
    ⟨_, exec_noop x y z s, plainTick_completes fetch _⟩⟩

/-- Past the halt check, a word with no instruction raises its fault (R117, R173). -/
theorem step_of_instrOf_eq_none {s : State} (runs : RunsTick s)
    (undefined : instrOf s.exmem.instr = none) : step s = .next (undefinedTick s) := by
  obtain ⟨running, noHalt⟩ := runs
  simp [step, running, noHalt, undefined]

/-- Settles O14: a set bit above the opcode leaves the word without an instruction. -/
theorem undefinedWordFaults : Obligations.UndefinedWordFaults := by
  intro s runs unusedBits
  exact step_of_instrOf_eq_none runs (instrOf_eq_none_of_undefined unusedBits)

/-! ### Behind a HALT -/

theorem step_of_not_running {s : State} (stopped : s.status ≠ .running) : step s = .next s := by
  obtain ⟨-, e⟩ | ⟨running, -⟩ | ⟨running, -⟩ | ⟨running, -⟩ := step_cases s
  · exact e
  all_goals exact absurd running stopped

theorem run_succ_of_step {s t : State} (h : step s = .next t) (n : Nat) :
    core.run (n + 1) s = core.run n t := by
  simp only [Host.Core.run, show core.step s = .next t from h]

/-- No run leaves a terminal status, whatever its length (R225). -/
theorem run_of_not_running {s : State} (stopped : s.status ≠ .running) (n : Nat) :
    core.run n s = .next s := by
  induction n with
  | zero => rfl
  | succ n ih => rw [run_succ_of_step (step_of_not_running stopped), ih]

/-- The tick of a HALT leaves the data store alone and hands its word to MEMWB (R117, R171). -/
theorem Ticks.dmem_memwb_of_halt {s t : State} {a b : Reg} {c : Half} (h : Ticks s t)
    (word : s.exmem.instr = encode (.halt a b c)) :
    t.dmem = s.dmem ∧ t.memwb.instr = encode (.halt a b c) := by
  obtain ⟨_, _, answer, front⟩ := h.memoryAnswers_of_encode word
  cases answer
  exact ⟨front.dmem_eq, by rw [front.memwb_eq, backEnd_memwb, word]⟩

/-- Settles O40: the HALT is in MEMWB after its tick, so the halt check of the next step finds it
before any other stage runs, and HALTED is terminal. -/
theorem nothingAfterHaltCommits : Obligations.NothingAfterHaltCommits := by
  intro s t a b c h word
  obtain ⟨dmem, inWriteback⟩ := h.dmem_memwb_of_halt word
  obtain ⟨-, -, running⟩ := h
  have halts : step t = .next { t with status := .halted } :=
    haltCheckStopsCore t a b c running inWriteback
  refine ⟨dmem, fun n => ?_⟩
  calc core.run (n + 1) t = core.run n { t with status := .halted } := run_succ_of_step halts n
    _ = .next { t with status := .halted } := run_of_not_running (by simp) n

end Sys2Proof.Machine
end

section
/-! SUPPORT. `LoadError` (60_exceptions.md R202, 70_reset_and_hazards.md R220): which word of a bad image
it records (O6). -/

namespace Sys2Proof.Machine

/-- The scan of an image from store address `a` stops at the first word that cannot be loaded, every
word before it being loadable (log entry 5). -/
theorem badImageWord_eq_some {a b : Nat} {img : List Int} (found : badImageWord a img = some b) :
    ∃ k, ∃ h : k < img.length, b = a + k ∧
      (65536 ≤ b ∨ ¬ (-2 ^ 31 ≤ img[k] ∧ img[k] < 2 ^ 31)) ∧
      ∀ j, (hj : j < k) → a + j < 65536 ∧ -2 ^ 31 ≤ img[j] ∧ img[j] < 2 ^ 31 := by
  induction img generalizing a with
  | nil => cases found
  | cons v rest ih =>
    simp only [badImageWord, imageValueValid_iff] at found
    split at found
    case isFalse bad =>
      obtain rfl := Option.some.inj found
      refine ⟨0, Nat.zero_lt_succ _, rfl, ?_, nofun⟩
      by_cases fits : a < 65536
      · exact .inr fun inRange => bad ⟨fits, inRange⟩
      · exact .inl (Nat.not_lt.1 fits)
    case isTrue good =>
      obtain ⟨k, hk, hb, offends, before⟩ := ih found
      refine ⟨k + 1, Nat.succ_lt_succ hk, by omega, offends, fun j hj => ?_⟩
      cases j with
      | zero => exact good
      | succ j =>
        obtain ⟨fits, inRange⟩ := before j (Nat.lt_of_succ_lt_succ hj)
        exact ⟨by omega, inRange⟩

/-- Settles O6: a bad image has a bad word, and the scan from address 0 answers its index. -/
theorem loadErrorsOnBadImage : Obligations.LoadErrorsOnBadImage := by
  intro unloaded img bad
  have scan := badImageWord_eq_none (img := img) (Nat.zero_le 65536)
  rw [Nat.zero_add] at scan
  obtain ⟨b, found⟩ := Option.ne_none_iff_exists'.1 (mt scan.1 bad)
  obtain ⟨k, hk, hb, offends, before⟩ := badImageWord_eq_some found
  simp only [Nat.zero_add] at hb before
  subst hb
  exact ⟨_, hk, by rw [load, found], offends, before⟩

end Sys2Proof.Machine
end

section
/-! SUPPORT. The faults of a tick (60_exceptions.md R203 to R207): the Memory stage's (O20), what a fault
leaves (O24), which one is raised (O25), and the codes (O26). -/

namespace Sys2Proof.Machine

/-! ### The Memory stage of LW and SW outside the data store -/

theorem loadTick_of_invalid {s : State} (invalid : ¬ DataAddressOk s.exmem.aluResult) (k : Word) :
    loadTick s k = raiseFault s (.invalidAddressData s.exmem.aluResult k s.cycles) := by
  obtain ⟨valid, -⟩ | ⟨-, e⟩ := loadTick_cases s k
  · exact absurd (dataAddressOk_iff.2 valid) invalid
  · exact e

theorem storeTick_of_invalid {s : State} (invalid : ¬ DataAddressOk s.exmem.aluResult) (k : Word) :
    storeTick s k = raiseFault s (.invalidAddressData s.exmem.aluResult k s.cycles) := by
  obtain ⟨valid, -⟩ | ⟨-, e⟩ := storeTick_cases s k
  · exact absurd (dataAddressOk_iff.2 valid) invalid
  · exact e

/-- Settles O20: the invalid branch of the two data accesses. -/
theorem dataAddressFaults : Obligations.DataAddressFaults := by
  intro s rs rt off invalid
  rw [exec_lw, exec_sw, loadTick_of_invalid invalid, storeTick_of_invalid invalid]
  exact ⟨rfl, rfl⟩

/-! ### What a fault leaves -/

/-- Settles O24: of the four outcomes of a step only `faults` ends in FAULTED, and it is `raiseFault`. -/
theorem faultCommitsNothing : Obligations.FaultCommitsNothing := by
  intro s t f running hstep faulted
  refine ⟨?_, step_of_not_running (by simp [faulted])⟩
  cases step_outcome hstep with
  | terminal stopped => exact absurd running stopped
  | halts => cases faulted
  | faults _ g _ =>
    obtain rfl : g = f := Status.faulted.inj faulted
    rfl
  | commits _ _ _ front =>
    have keeps : t.status = s.status := front.status_eq
    rw [keeps, running] at faulted
    cases faulted

/-! ### Which fault is raised

`step` is the transcribed tick (O8), so the order of R207 is read off `memoryStage` and, where it raises
nothing, off the end of the tick. -/

theorem dataAddressValid_eq_true_iff {a : Word} : dataAddressValid a = true ↔ DataAddressOk a :=
  (dataAddressValid_iff a).trans dataAddressOk_iff.symm

/-! Legality of a word, by its instruction (R65, R66). -/

theorem legalWord_of_instrOf {w : Word} {i : Instr} (decoded : instrOf w = some i) :
    legalWord w = i.wellFormed := by
  simp [legalWord, decoded]

theorem legalWord_of_access {w : Word} {rs rt : Reg} {off : Half}
    (word : w = encode (.lw rs rt off) ∨ w = encode (.sw rs rt off)) : legalWord w = true := by
  obtain word | word := word <;> exact legalWord_of_instrOf (instrOf_eq_some_iff.2 word)

section MemoryStage

variable {s : State}

/-- R203: an Undefined word, or an ADD or NOR with field2 above 7. -/
theorem memoryStage_of_illegal (illegal : legalWord s.exmem.instr = false) :
    memoryStage s = .error (.invalidInstruction s.exmem.instr s.cycles) := by
  cases decoded : instrOf s.exmem.instr with
  | none => simp only [memoryStage, decoded]
  | some i =>
    rw [legalWord_of_instrOf decoded] at illegal
    cases i
    case add rd | nor rd =>
      have outside : 7 < rd.toNat := Nat.not_le.1 (of_decide_eq_false illegal)
      simp only [memoryStage, decoded, if_pos outside]
    all_goals cases illegal

/-- R204: a LW or SW outside the data store. -/
theorem memoryStage_of_badAddress {rs rt : Reg} {off : Half}
    (word : s.exmem.instr = encode (.lw rs rt off) ∨ s.exmem.instr = encode (.sw rs rt off))
    (invalid : ¬ DataAddressOk s.exmem.aluResult) :
    memoryStage s =
      .error (.invalidAddressData s.exmem.aluResult s.exmem.instr s.cycles) := by
  have check : ¬ dataAddressValid s.exmem.aluResult = true :=
    mt dataAddressValid_eq_true_iff.1 invalid
  obtain decoded | decoded := word.imp instrOf_eq_some_iff.2 instrOf_eq_some_iff.2 <;>
    simp only [memoryStage, decoded, if_neg check]

/-- R203, R204: nothing else is raised by the Memory stage. -/
theorem memoryStage_of_legal (legal : legalWord s.exmem.instr = true)
    (valid : ∀ x y z, s.exmem.instr = encode (.lw x y z) ∨ s.exmem.instr = encode (.sw x y z) →
      DataAddressOk s.exmem.aluResult) : ∃ out, memoryStage s = .ok out := by
  simp only [← instrOf_eq_some_iff, ← dataAddressValid_eq_true_iff] at valid
  cases decoded : instrOf s.exmem.instr with
  | none => simp [legalWord, decoded] at legal
  | some i =>
    rw [legalWord_of_instrOf decoded] at legal
    cases i <;> simp only [memoryStage, decoded]
    case add rd | nor rd =>
      have inside : ¬ 7 < rd.toNat := Nat.not_lt.2 (of_decide_eq_true legal)
      exact ⟨_, if_neg inside⟩
    case lw => exact ⟨_, if_pos (valid _ _ _ (.inl decoded))⟩
    case sw => exact ⟨_, if_pos (valid _ _ _ (.inr decoded))⟩
    case beq | jalr | halt | noop => exact ⟨_, rfl⟩

end MemoryStage

/-! The end of the tick, and the order of the three checks. -/

/-- R49, R205: the end of the tick faults exactly when its fetch is performed with `pc` out of range. -/
theorem finishTick_status (s : State) (k v : Word) (m : Store) (taken : Bool) :
    (finishTick s k v m taken).status =
      if taken = false ∧ hazard s.ifid.instr s.idex.instr = false ∧ 65536 ≤ s.pc.toNat then
        .faulted (.invalidAddressFetch s.pc s.cycles)
      else s.status := by
  obtain ⟨ht, e⟩ | ⟨-, hazardous, e⟩ | ⟨-, -, fetchable, e⟩ | ⟨ht, hazardFree, outside, e⟩ :=
    finishTick_cases s k v m taken <;> rw [e]
  · simp [ht]
  · simp [hazardous]
  · simp [fetchable.not_ge]
  · simp [ht, hazardFree, outside]

/-- Settles O25: the halt check, then the answer of `memoryStage`, then the end of the tick. -/
theorem faultPriority : Obligations.FaultPriority := by
  intro s t running hstep
  obtain rfl : tick s = t := Host.Outcome.next.inj ((stepIsTheTick s).symm.trans hstep)
  refine ⟨fun halt => ?_, fun noHalt illegal => ?_, fun x y z word => ?_,
    fun noHalt legal valid => ?_⟩
  · simp [tick, running, halt]
  · rw [tick_of_memoryStage_error ⟨running, noHalt⟩ (memoryStage_of_illegal illegal),
      raiseFault_status]
  · refine ⟨legalWord_of_access word, fun noHalt invalid => ?_⟩
    rw [tick_of_memoryStage_error ⟨running, noHalt⟩ (memoryStage_of_badAddress word invalid),
      raiseFault_status]
  · obtain ⟨out, stage⟩ := memoryStage_of_legal legal valid
    rw [tick_of_memoryStage_ok ⟨running, noHalt⟩ stage, finishTick_status, running]

/-! ### The codes -/

/-- Settles O26: the rows of `Fault.code`. -/
theorem faultCodes : Obligations.FaultCodes :=
  ⟨fun _ => rfl, fun _ _ => rfl, fun _ _ _ => rfl, fun _ _ => rfl⟩

end Sys2Proof.Machine
end

section
/-! SUPPORT. The sequential machine of R226 (70_reset_and_hazards.md section 3): forwarding is complete
(O48), a tick of the pipeline is one instruction of that machine or none (O49), and a run that halts
leaves what it leaves (O50). -/

namespace Sys2Proof.Machine

/-- Settles O48, one lemma for each operand. -/
theorem operandsAreProgramValues : Obligations.OperandsAreProgramValues :=
  fun _ hs => ⟨hs.operandA_eq_programReg, hs.operandB_eq_programReg⟩

/-! ### The next instruction to commit -/

/-- `commitPc` as it would be without the word in EXMEM: the address of the oldest word behind that one. -/
def youngerPc (s : State) : Word :=
  if idexLive s then s.idex.pcPlus1 - 1
  else if ifidLive s then s.ifid.pcPlus1 - 1
  else s.pc

theorem commitPc_of_bubble {s : State} (bubble : exmemLive s = false) : commitPc s = youngerPc s := by
  rw [commitPc, bubble]
  rfl

section Live

variable {s : State} (live : exmemLive s = true)
include live

theorem commitPc_add_one_of_live : commitPc s + 1 = exmemPcPlus1 s := by
  rw [commitPc, if_pos live, BitVec.sub_add_cancel]

/-- The target in EXMEM is that of a branch at the address of its word (R112, R160). -/
theorem branchTarget_of_live :
    s.exmem.branchTarget = commitPc s + 1 + sext16 (f2 s.exmem.instr) := by
  rw [commitPc_add_one_of_live live, exmemPcPlus1, BitVec.sub_add_cancel]

/-- A fetched word in EXMEM is the one at the address of the next instruction to commit (R49). -/
theorem PipelineInv.read_commitPc (hs : PipelineInv s) :
    (commitPc s).toNat < 65536 ∧ s.imem.read (commitPc s).toNat = s.exmem.instr := by
  obtain ⟨inStore, word, -⟩ := hs.exmem_live live
  have fetched : exmemPcPlus1 s ≠ 0 := of_decide_eq_true live
  have address : (commitPc s).toNat = (exmemPcPlus1 s).toNat - 1 := by
    rw [commitPc, if_pos live]
    bv_omega
  rw [address]
  exact ⟨by omega, word.symm⟩

/-- The fetched words follow one another in program order. -/
theorem PipelineInv.youngerPc_of_live (hs : PipelineInv s) : youngerPc s = commitPc s + 1 := by
  obtain ⟨-, -, fetched, follows⟩ := hs.exmem_live live
  have younger : youngerPc s = (if idexLive s then s.idex.pcPlus1 else s.ifid.pcPlus1) - 1 := by
    rw [youngerPc, if_pos fetched]
    split <;> rfl
  rw [younger, follows, BitVec.add_sub_cancel, commitPc_add_one_of_live live]

end Live

/-! ### What a front end leaves to commit next -/

/-- A load-use hazard needs a fetched LW in IDEX (R107). -/
theorem PipelineInv.idexLive_of_hazard {s : State} (hs : PipelineInv s)
    (hazardous : hazard s.ifid.instr s.idex.instr = true) : idexLive s = true := by
  by_contra bubble
  obtain ⟨word, -⟩ := hs.idex_bubble (Bool.eq_false_iff.2 bubble)
  simp [hazard, word] at hazardous

/-- The word a tick fetches is no bubble (R104). -/
theorem ifidLive_of_fetched {s t : State} {w : Word} (fetchable : s.pc.toNat < 65536)
    (fetched : t.ifid = fetchLatch s w) : ifidLive t = true := by
  refine ifidLive_iff.2 fun zero => ?_
  rw [fetched] at zero
  have zero : (s.pc + 1).toNat = 0 := congrArg BitVec.toNat zero
  have := toNat_succ_of_fetchable fetchable
  omega

/-- A tick that takes no branch leaves the word behind EXMEM as the next to commit, whether a stall holds
it back or not (R105, R108, R112). -/
theorem PipelineInv.commitPc_of_notTaken {s n t : State} (hs : PipelineInv s) (front : FrontEnd s n t)
    (notTaken : branchTaken s = false) : commitPc t = youngerPc s := by
  cases front with
  | flush taken => simp [notTaken] at taken
  | stall _ hazardous =>
    have hx : (stallFront s n).exmem = executeLatch s := rfl
    have live := hs.idexLive_of_hazard hazardous
    rw [commitPc, hs.exmemLive_of_executes hx, hs.exmemPcPlus1_of_executes hx, youngerPc, if_pos live,
      if_pos live]
  | advance _ _ fetchable =>
    have hx : (advanceFront s n (s.imem.read s.pc.toNat)).exmem = executeLatch s := rfl
    have moved : idexLive (advanceFront s n (s.imem.read s.pc.toNat)) = ifidLive s := rfl
    have fetched := ifidLive_of_fetched fetchable (advanceFront_ifid s n (s.imem.read s.pc.toNat))
    rw [commitPc, hs.exmemLive_of_executes hx, hs.exmemPcPlus1_of_executes hx, moved, if_pos fetched]
    simp [youngerPc, decodeLatch, fetchLatch]

/-- A flush leaves only bubbles, so the branch target is next (R115). -/
theorem FrontEnd.commitPc_of_taken {s n t : State} (front : FrontEnd s n t)
    (taken : branchTaken s = true) : commitPc t = s.exmem.branchTarget := by
  cases front with
  | flush _ =>
    rw [commitPc, exmemLive_of_bubble rfl, idexLive_of_bubble rfl, ifidLive_of_bubble rfl]
    rfl
  | stall notTaken _ => simp [taken] at notTaken
  | advance notTaken _ _ => simp [taken] at notTaken

/-! ### The instruction in EXMEM -/

theorem isHalt_iff {w : Word} : isHalt w = true ↔ ∃ a b c, instrOf w = some (.halt a b c) := by
  unfold isHalt
  split <;> simp_all

theorem isHalt_eq_false {w : Word} {i : Instr} (decoded : instrOf w = some i)
    (notHalt : ∀ a b c, i ≠ .halt a b c) : isHalt w = false := by
  refine Bool.eq_false_iff.2 fun halt => ?_
  obtain ⟨a, b, c, decoded'⟩ := isHalt_iff.1 halt
  exact notHalt a b c (Option.some.inj (decoded.symm.trans decoded'))

section Commits

variable {s t : State} {i : Instr} {v : Word} {m : Store}

/-- After a tick that commits, the Memory stage's answer has happened (R117, R118). -/
theorem seqOf_of_commits (decoded : instrOf s.exmem.instr = some i)
    (front : FrontEnd s (backEnd s s.exmem.instr v m) t) :
    seqOf t =
      { pc := commitPc t
        reg := writeReg (writebackRegs s) (destination i) v
        dmem := m
        halted := isHalt s.exmem.instr } := by
  simp only [seqOf, writebackRegs, front.reg_eq, front.memwb_eq, front.dmem_eq, backEnd_reg,
    backEnd_memwb, backEnd_dmem, destinationOf, decoded, Option.bind_some]

variable (hs : PipelineInv s)
include hs

/-- EXMEM holds the result for the registers the older instructions leave (R227). -/
theorem PipelineInv.aluResult_of_decoded (decoded : instrOf s.exmem.instr = some i)
    (takes : takesForwarding i = true) :
    s.exmem.aluResult = alu i (readReg (writebackRegs s) i.field0)
      (readReg (writebackRegs s) i.field1) (sext16 i.field2) := by
  obtain ⟨h0, h1, h2⟩ := fields_of_instrOf decoded
  rw [hs.exmem_result (by simp [takesForwardingOf, decoded, takes]), aluOf, decoded, h0, h1, h2]

/-- A SW in EXMEM holds the value its register has once the older instructions have finished (R227). -/
theorem PipelineInv.readRegB_of_sw {rs rt : Reg} {off : Half}
    (decoded : instrOf s.exmem.instr = some (.sw rs rt off)) :
    s.exmem.readRegB = readReg (writebackRegs s) rt := by
  obtain ⟨-, field, -⟩ := fields_of_instrOf decoded
  have stored := hs.exmem_stored
  rw [field, Instr.field1] at stored
  exact stored (by simp [sourcesOf, decoded, sources])

/-- The Memory stage's answer for the instruction in EXMEM is the effect the instruction's own rule gives
it (R140, R141, R150, R151, R160, R170 to R172). -/
theorem PipelineInv.seqExec_seqOf (decoded : instrOf s.exmem.instr = some i)
    (answer : MemoryAnswers s i v m) (noHalt : isHalt s.memwb.instr = false) :
    seqExec i (seqOf s) = some
      { pc := if branchTaken s then commitPc s + 1 + sext16 i.field2 else commitPc s + 1
        reg := writeReg (writebackRegs s) (destination i) v
        dmem := m
        halted := isHalt s.exmem.instr } := by
  have result := hs.aluResult_of_decoded decoded
  cases answer
  case add legal | nor legal =>
    rw [branchTaken_eq_false decoded nofun, isHalt_eq_false decoded nofun, result rfl]
    simp only [seqExec, if_pos legal, seqOf, noHalt]
    rfl
  case lw valid =>
    rw [result rfl] at valid
    rw [branchTaken_eq_false decoded nofun, isHalt_eq_false decoded nofun, result rfl,
      ← addressIndex_of_valid valid]
    simp only [seqExec, seqOf, noHalt]
    exact if_pos ((dataAddressValid_iff _).2 valid)
  case sw valid =>
    rw [result rfl] at valid
    rw [branchTaken_eq_false decoded nofun, isHalt_eq_false decoded nofun, result rfl,
      hs.readRegB_of_sw decoded, ← addressIndex_of_valid valid]
    simp only [seqExec, seqOf, noHalt]
    exact if_pos ((dataAddressValid_iff _).2 valid)
  case beq rs rt off =>
    have taken : branchTaken s = true ↔ readReg (writebackRegs s) rs = readReg (writebackRegs s) rt :=
      branchTaken_iff_of_beq (instrOf_eq_some_iff.1 decoded) (result rfl)
    simp only [isHalt_eq_false decoded nofun, taken, seqExec, seqOf, noHalt]
    split <;> rfl
  case jalr | noop =>
    rw [branchTaken_eq_false decoded nofun, isHalt_eq_false decoded nofun]
    simp only [seqExec, seqOf, noHalt]
    rfl
  case halt =>
    rw [branchTaken_eq_false decoded nofun, isHalt, decoded]
    rfl

/-- With a fetched word in EXMEM, a tick is that instruction of the sequential machine. -/
theorem PipelineInv.seqStep_of_live (noHalt : isHalt s.memwb.instr = false)
    (decoded : instrOf s.exmem.instr = some i) (answer : MemoryAnswers s i v m)
    (front : FrontEnd s (backEnd s s.exmem.instr v m) t) (live : exmemLive s = true) :
    seqStep s.imem (seqOf s) = some (seqOf t) := by
  obtain ⟨inStore, word⟩ := hs.read_commitPc live
  obtain ⟨-, -, field⟩ := fields_of_instrOf decoded
  have target := branchTarget_of_live live
  rw [field] at target
  have next : commitPc t =
      if branchTaken s then commitPc s + 1 + sext16 i.field2 else commitPc s + 1 := by
    split
    case isTrue taken => rw [front.commitPc_of_taken taken, target]
    case isFalse notTaken =>
      rw [hs.commitPc_of_notTaken front (Bool.eq_false_iff.2 notTaken), hs.youngerPc_of_live live]
  calc seqStep s.imem (seqOf s)
      = (instrOf s.exmem.instr).bind fun j => seqExec j (seqOf s) := by
        simp [seqStep, seqOf, noHalt, (fetchAddressValid_iff _).2 inStore,
          addressIndex_of_valid inStore, word]
    _ = seqExec i (seqOf s) := by rw [decoded, Option.bind_some]
    _ = some (seqOf t) := by
        rw [hs.seqExec_seqOf decoded answer noHalt, seqOf_of_commits decoded front, next]

/-- With a bubble in EXMEM, a tick is no instruction of the sequential machine. -/
theorem PipelineInv.seqOf_of_bubble (noHalt : isHalt s.memwb.instr = false)
    (decoded : instrOf s.exmem.instr = some i) (answer : MemoryAnswers s i v m)
    (front : FrontEnd s (backEnd s s.exmem.instr v m) t) (bubble : exmemLive s = false) :
    seqOf t = seqOf s := by
  obtain ⟨word, -⟩ := hs.exmem_bubble bubble
  have noop : i = .noop 0 0 0 := by
    rw [word, instrOf_noopWord] at decoded
    exact (Option.some.inj decoded).symm
  subst noop
  have next : commitPc t = commitPc s := by
    rw [hs.commitPc_of_notTaken front (branchTaken_eq_false decoded nofun), commitPc_of_bubble bubble]
  rw [seqOf_of_commits decoded front, next, isHalt_eq_false decoded nofun, ← noHalt]
  cases answer
  rfl

end Commits

/-- Settles O49: of the four outcomes of a step only the halt and the tick that commits are from RUNNING
and do not fault; the halt changes nothing the sequential machine has. -/
theorem tickRefinesSequentialMachine : Obligations.TickRefinesSequentialMachine := by
  intro s t hs running hstep noFault
  cases step_outcome hstep with
  | terminal stopped => exact absurd running stopped
  | halts _ halt =>
    rw [if_neg (by simp [halt])]
    rfl
  | faults _ f _ => exact absurd rfl (noFault f)
  | commits runs decoded answer front =>
    obtain ⟨-, noHalt⟩ := runs
    split
    case isTrue commits =>
      obtain ⟨live, -⟩ := commits
      exact hs.seqStep_of_live noHalt decoded answer front live
    case isFalse idle =>
      have bubble : exmemLive s = false := Bool.eq_false_iff.2 fun live => idle ⟨live, noHalt⟩
      exact hs.seqOf_of_bubble noHalt decoded answer front bubble

/-! ### Runs -/

/-- What every step keeps, every run keeps. -/
theorem run_keeps {P : State → Prop} (kept : ∀ s t, P s → step s = .next t → P t) {n : Nat}
    {s t : State} (start : P s) (hrun : core.run n s = .next t) : P t := by
  induction n generalizing s with
  | zero => exact Host.Outcome.next.inj hrun ▸ start
  | succ n ih =>
    obtain ⟨u, hstep, hrest⟩ := run_succ_eq_next hrun
    exact ih (kept s u start hstep) hrest

/-- The core is halted only by the HALT in MEMWB (R101), which stays there (R225). -/
def HaltedByHalt (s : State) : Prop := s.status = .halted → isHalt s.memwb.instr = true

theorem haltedByHalt_of_load {unloaded : Nat → Word} {img : List Int} {s : State}
    (hload : load unloaded img = .next s) : HaltedByHalt s := by
  obtain ⟨-, rfl⟩ := load_eq_next.1 hload
  exact nofun

theorem step_keeps_haltedByHalt (s t : State) (hs : HaltedByHalt s) (hstep : step s = .next t) :
    HaltedByHalt t := by
  cases step_outcome hstep with
  | terminal _ => exact hs
  | halts _ halt => exact fun _ => halt
  | faults _ _ _ => exact nofun
  | commits runs _ _ front =>
    intro halted
    rw [front.status_eq, backEnd_status, runs.1] at halted
    cases halted

/-- Writeback of a HALT writes no register (R118), so the registers of the sequential state are the
core's. -/
theorem writebackRegs_of_halt {s : State} (halt : isHalt s.memwb.instr = true) :
    writebackRegs s = s.reg := by
  obtain ⟨a, b, c, decoded⟩ := isHalt_iff.1 halt
  rw [writebackRegs, destinationOf, decoded]
  rfl

/-- R226 for every run that does not end in a fault: its instructions are those of the sequential
machine. -/
theorem PipelineInv.seqRun_of_run {n : Nat} {s t : State} (hs : PipelineInv s)
    (hrun : core.run n s = .next t) (noFault : ∀ f, t.status ≠ .faulted f) :
    ∃ k, seqRun s.imem k (seqOf s) = some (seqOf t) := by
  induction n generalizing s with
  | zero => exact ⟨0, congrArg (some <| seqOf ·) (Host.Outcome.next.inj hrun)⟩
  | succ n ih =>
    obtain ⟨u, hstep, hrest⟩ := run_succ_eq_next hrun
    obtain ⟨k, hk⟩ := ih (pipelineInvKept s u hs hstep) hrest
    rw [step_imem_eq hstep] at hk
    by_cases running : s.status = .running
    · have noFault' (f : Fault) : u.status ≠ .faulted f := by
        intro faulted
        rw [run_of_not_running (by simp [faulted]) n] at hrest
        exact noFault f (Host.Outcome.next.inj hrest ▸ faulted)
      have refines := tickRefinesSequentialMachine s u hs running hstep noFault'
      split at refines
      case isTrue => exact ⟨k + 1, by rw [seqRun, refines, Option.bind_some, hk]⟩
      case isFalse => exact ⟨k, refines ▸ hk⟩
    · rw [step_of_not_running running] at hstep
      obtain rfl := Host.Outcome.next.inj hstep
      exact ⟨k, hk⟩

/-- Settles O50: a run that ends HALTED ends with a HALT in MEMWB, and the sequential state it stands for
has its registers and data store. -/
theorem haltedRunMatchesSequentialMachine : Obligations.HaltedRunMatchesSequentialMachine := by
  intro unloaded img s t n hload hrun halted
  have hs := pipelineInvAfterLoad unloaded img s hload
  obtain ⟨k, hk⟩ := hs.seqRun_of_run hrun (by simp [halted])
  have halt := run_keeps step_keeps_haltedByHalt (haltedByHalt_of_load hload) hrun halted
  exact ⟨k, seqOf t, hk, halt, writebackRegs_of_halt halt, rfl⟩

end Sys2Proof.Machine
end


section
/-! SUPPORT. The cycle law (70_reset_and_hazards.md R232): every step keeps the count of words and bubbles
(O52), and at the halt the count is the law (O51). -/

namespace Sys2Proof.Machine

/-! ### The latches in front of the Memory stage -/

/-- A word that no bubble holds was fetched (R32). -/
theorem PipelineInv.exmemLive_of_ne_noopWord {s : State} (hs : PipelineInv s)
    (notNoop : s.exmem.instr ≠ Config.noopWord) : exmemLive s = true := by
  by_contra bubble
  obtain ⟨word, -⟩ := hs.exmem_bubble (Bool.eq_false_iff.2 bubble)
  exact notNoop word

/-- Only a load leaves a bubble behind it (R108), so behind a fetched word of another opcode in EXMEM
both latches are full. -/
theorem PipelineInv.bubblesInFlight_eq_zero {s : State} (hs : PipelineInv s)
    (notNoop : s.exmem.instr ≠ Config.noopWord) (noLoad : loadDestinationOf s.exmem.instr = none) :
    bubblesInFlight s = 0 := by
  have live := hs.exmemLive_of_ne_noopWord notNoop
  obtain ⟨-, -, fetched, -⟩ := hs.exmem_live live
  have followed : idexLive s = true := by
    by_contra bubble
    exact hs.exmem_stall live (Bool.eq_false_iff.2 bubble) noLoad
  simp [bubblesInFlight, live, fetched, followed]

theorem isBeq_iff {w : Word} : isBeq w = true ↔ ∃ rs rt off, instrOf w = some (.beq rs rt off) := by
  unfold isBeq
  split <;> simp_all

theorem loadDestinationOf_of_isBeq {w : Word} (beq : isBeq w = true) : loadDestinationOf w = none := by
  obtain ⟨rs, rt, off, decoded⟩ := isBeq_iff.1 beq
  rw [loadDestinationOf, decoded]
  rfl

theorem loadDestinationOf_of_isHalt {w : Word} (halt : isHalt w = true) :
    loadDestinationOf w = none := by
  obtain ⟨a, b, c, decoded⟩ := isHalt_iff.1 halt
  rw [loadDestinationOf, decoded]
  rfl

theorem isHalt_ne_noopWord {w : Word} (h : isHalt w = true) : w ≠ Config.noopWord := by
  rintro rfl
  simp at h

theorem branchTaken_of_halt {s : State} (halt : isHalt s.exmem.instr = true) :
    branchTaken s = false := by
  obtain ⟨a, b, c, decoded⟩ := isHalt_iff.1 halt
  exact branchTaken_eq_false decoded nofun

/-! ### What one tick adds -/

theorem Tally.add_of_cycles_eq {s t : State} (h : t.cycles = s.cycles) (c : Tally) : c.add s t = c :=
  if_pos h

theorem Tally.add_of_cycles_succ {s t : State} (h : t.cycles = s.cycles + 1) (c : Tally) :
    c.add s t =
      { written := c.written + (if exmemLive s && !isHalt s.exmem.instr then 1 else 0)
        stalls := c.stalls +
          (if hazard s.ifid.instr s.idex.instr && !branchTaken s && !isHalt s.exmem.instr then 1
            else 0)
        taken := c.taken + (if branchTaken s then 1 else 0) } :=
  if_neg (by omega)

/-- A tick passes one word or bubble on to MEMWB, and puts one bubble in flight where it stalls and three
where it flushes (R108, R115). -/
theorem PipelineInv.bubblesInFlight_of_commits {s n t : State} (hs : PipelineInv s)
    (front : FrontEnd s n t) :
    bubblesInFlight t + 1 = bubblesInFlight s + (if exmemLive s then 1 else 0) +
      (if hazard s.ifid.instr s.idex.instr && !branchTaken s then 1 else 0) +
      3 * (if branchTaken s then 1 else 0) := by
  cases front with
  | flush taken =>
    obtain ⟨beq, -⟩ := Bool.and_eq_true_iff.1 taken
    have notNoop := isBeq_ne_noopWord beq
    rw [hs.bubblesInFlight_eq_zero notNoop (loadDestinationOf_of_isBeq beq),
      hs.exmemLive_of_ne_noopWord notNoop, taken, bubblesInFlight, ifidLive_of_bubble rfl,
      idexLive_of_bubble rfl, exmemLive_of_bubble rfl]
    simp
  | stall notTaken hazardous =>
    have live := hs.idexLive_of_hazard hazardous
    obtain ⟨-, -, -, fetched, -⟩ := hs.idex_live live
    have held : ifidLive (stallFront s n) = ifidLive s := rfl
    rw [bubblesInFlight, bubblesInFlight, hs.exmemLive_of_executes rfl, idexLive_of_bubble rfl, held,
      live, fetched, notTaken, hazardous]
    cases exmemLive s <;> rfl
  | advance notTaken hazardFree fetchable =>
    have moved : idexLive (advanceFront s n (s.imem.read s.pc.toNat)) = ifidLive s := rfl
    have fetched := ifidLive_of_fetched fetchable (advanceFront_ifid s n (s.imem.read s.pc.toNat))
    rw [bubblesInFlight, bubblesInFlight, hs.exmemLive_of_executes rfl, moved, fetched, notTaken,
      hazardFree]
    have leaves : (if exmemLive s then 0 else 1) + (if exmemLive s then 1 else 0) = 1 := by
      cases exmemLive s <;> rfl
    simp only [Bool.false_and, Bool.false_eq_true, if_false, if_true]
    omega

/-- The count does not speak of the status. -/
theorem CountsAccountForCycles.withStatus {s : State} {c : Tally} (hc : CountsAccountForCycles s c)
    (x : Status) : CountsAccountForCycles { s with status := x } c :=
  ⟨hc.before_halt, hc.at_halt⟩

/-- The tick that commits keeps the count: it adds a cycle, and to the counts what has left EXMEM. -/
theorem CountsAccountForCycles.of_commits {s t : State} {c : Tally} {v : Word} {m : Store}
    (hc : CountsAccountForCycles s c) (hs : PipelineInv s) (runs : RunsTick s)
    (front : FrontEnd s (backEnd s s.exmem.instr v m) t) : CountsAccountForCycles t (c.add s t) := by
  obtain ⟨-, noHalt⟩ := runs
  have count := hc.before_halt noHalt
  have cycles : t.cycles = s.cycles + 1 := front.cycles_eq
  have passed : t.memwb.instr = s.exmem.instr := by rw [front.memwb_eq, backEnd_memwb]
  rw [Tally.add_of_cycles_succ cycles]
  constructor <;> rw [passed, cycles] <;> intro halt
  · have moved := hs.bubblesInFlight_of_commits front
    simp only [halt, Bool.not_false, Bool.and_true]
    omega
  · have full := hs.bubblesInFlight_eq_zero (isHalt_ne_noopWord halt)
      (loadDestinationOf_of_isHalt halt)
    simp only [halt, branchTaken_of_halt halt, Bool.not_true, Bool.and_false, Bool.false_eq_true,
      if_false]
    omega

/-- Settles O52: of the four outcomes of a step, only the tick that commits counts. -/
theorem countsAccountForCyclesKept : Obligations.CountsAccountForCyclesKept := by
  intro s t c hs hc hstep
  cases step_outcome hstep with
  | terminal _ => rwa [Tally.add_of_cycles_eq rfl]
  | halts _ _ =>
    rw [Tally.add_of_cycles_eq (enterHalted_cycles s)]
    exact hc.withStatus _
  | faults _ f _ =>
    rw [Tally.add_of_cycles_eq (raiseFault_cycles s f)]
    exact hc.withStatus _
  | commits runs _ _ front => exact hc.of_commits hs runs front

/-! ### Runs with the counts -/

/-- What every step keeps of the state and the tally, every counted run keeps. -/
theorem runTally_keeps {P : State → Tally → Prop}
    (kept : ∀ s t c, P s c → step s = .next t → P t (c.add s t)) {n : Nat} {s t : State} {c d : Tally}
    (start : P s c) (hrun : runTally n (s, c) = (t, d)) : P t d := by
  induction n generalizing s c with
  | zero =>
    cases hrun
    exact start
  | succ n ih =>
    obtain ⟨u, hstep⟩ := stepAlwaysAnswers s
    simp only [runTally, hstep] at hrun
    exact ih (kept s u c start hstep) hrun

/-- What the cycle law needs of a state and its tally. -/
structure Counted (s : State) (c : Tally) : Prop where
  pipeline : PipelineInv s
  haltedByHalt : HaltedByHalt s
  counts : CountsAccountForCycles s c

theorem step_keeps_counted (s t : State) (c : Tally) (h : Counted s c) (hstep : step s = .next t) :
    Counted t (c.add s t) where
  pipeline := pipelineInvKept s t h.pipeline hstep
  haltedByHalt := step_keeps_haltedByHalt s t h.haltedByHalt hstep
  counts := countsAccountForCyclesKept s t c h.pipeline h.counts hstep

/-- Settles O51: a counted run that ends HALTED ends with a HALT in MEMWB, where the count is the law. -/
theorem cycleLaw : Obligations.CycleLaw := by
  intro unloaded img s t n c hload hrun halted
  have start : Counted s ⟨0, 0, 0⟩ :=
    ⟨pipelineInvAfterLoad unloaded img s hload, haltedByHalt_of_load hload,
      countsAccountForCyclesAfterLoad unloaded img s hload⟩
  have counted := runTally_keeps step_keeps_counted start hrun
  exact counted.counts.at_halt (counted.haltedByHalt halted)

end Sys2Proof.Machine
end

section
/-! SUPPORT. The host interface (70_reset_and_hazards.md R223, R225): what a step reports (O41), and that
it does so again in a terminal status (O12). -/

namespace Sys2Proof.Machine

theorem Status.fault?_eq_some_iff {x : Status} {f : Fault} : x.fault? = some f ↔ x = .faulted f := by
  cases x <;> simp [Status.fault?]

/-- Settles O41, field by field of the result. -/
theorem stepResultReports : Obligations.StepResultReports :=
  fun _ => ⟨rfl, decide_eq_true_iff, fun _ => Status.fault?_eq_some_iff, rfl⟩

/-- Settles O12: the answer of a step in a terminal status is the state itself. -/
theorem terminalStatesIgnoreSteps : Obligations.TerminalStatesIgnoreSteps := by
  intro s stopped
  have stays := step_of_not_running stopped
  refine ⟨stays, fun t hstep => ?_⟩
  rw [stays] at hstep
  obtain rfl := Host.Outcome.next.inj hstep
  rfl

end Sys2Proof.Machine
end

section
/-! SUPPORT. A consumer directly behind a LW (70_reset_and_hazards.md R230): the stall, then the loaded
word in Execute (O39). -/

namespace Sys2Proof.Machine

section LoadUse

variable {s0 s1 s2 : State} {a r : Reg} {c : Half} (h0 : Ticks s0 s1) (h1 : Ticks s1 s2)
  (notTaken : branchTaken s0 = false) (load : s0.idex.instr = encode (.lw a r c))
  (reads : ReadsReg s0.ifid.instr r)
include h0 notTaken load reads

/-- The first tick stalls: the consumer is held, a bubble follows the LW into EXMEM (R107, R108). -/
theorem loadUse_stalls : s1.pc = s0.pc ∧ s1.ifid = s0.ifid ∧ s1.idex.instr = Config.noopWord ∧
    s1.exmem.instr = encode (.lw a r c) ∧ hazard s1.ifid.instr s1.idex.instr = false := by
  have hazardous := (hazardExactly _ _).2 ⟨a, r, c, load, reads⟩
  obtain ⟨hpc, hifid, hidex, hexmem, free⟩ := stallLastsOneTick s0 s1 h0 notTaken hazardous
  exact ⟨hpc, hifid, by rw [hidex]; rfl, hexmem.trans load, free⟩

include h1

/-- The second tick decodes the consumer, with a bubble in EXMEM and the loaded word in MEMWB. -/
theorem loadUse_decodes : s2.idex.instr = s0.ifid.instr ∧ s2.exmem.instr = Config.noopWord ∧
    s2.memwb = ⟨encode (.lw a r c), s1.dmem.read s1.exmem.aluResult.toNat⟩ := by
  obtain ⟨-, hifid, hidex, word, free⟩ := loadUse_stalls h0 notTaken load reads
  have front := h1.frontAdvances (branchTaken_eq_false (instrOf_eq_some_iff.2 word) nofun)
  obtain ⟨-, -, decoded⟩ := front.fetch free
  exact ⟨by rw [decoded, hifid], front.exmem_instr.trans hidex, by rw [h1.memwb_of_lw word, word]⟩

/-- Forwarding then supplies the loaded word for the loaded register (R109, R110). -/
theorem loadUse_forwards (v0 : Word) :
    forward s2 r v0 = s1.dmem.read s1.exmem.aluResult.toNat := by
  obtain ⟨-, bubble, loaded⟩ := loadUse_decodes h0 h1 notTaken load reads
  obtain ⟨-, fromMemwb, -⟩ := nearestProducerForwards s2 r v0
  have noProducer : ¬ AluWrites s2.exmem.instr r := by
    rw [← namesReg_aluDestinationOf_iff, bubble]
    simp [aluDestinationOf, aluDestination]
  have producer : WritesReg s2.memwb.instr r := .inr ⟨a, c, by rw [loaded]⟩
  rw [fromMemwb noProducer producer, loaded]

end LoadUse

/-- Settles O39: a word that reads a register takes forwarding, whichever field names it. -/
theorem loadUseDeliversLoadedWord : Obligations.LoadUseDeliversLoadedWord := by
  intro s0 s1 s2 a r c h0 h1 notTaken load reads
  obtain ⟨hpc, -⟩ := loadUse_stalls h0 notTaken load reads
  obtain ⟨consumer, -⟩ := loadUse_decodes h0 h1 notTaken load reads
  have forwards := loadUse_forwards h0 h1 notTaken load reads
  have takes : takesForwardingOf s2.idex.instr = true := by
    rw [consumer]
    exact takesForwardingOf_of_source (mem_sourcesOf_iff.2 reads)
  refine ⟨hpc, consumer, fun field => ?_, fun field => ?_⟩
  · rw [operandA, if_pos takes, consumer, field, forwards]
  · rw [operandB, if_pos takes, consumer, field, forwards]

end Sys2Proof.Machine
end
